-- ==== Sys2Proof/Word.lean ====
section
/-! DEFINITION. The two word types of the louisb0/8086 core (spec R8: a byte is 8 bits, a word is 16 bits). -/

namespace Sys2Proof

/-- R8: a byte, bits 7..0. -/
abbrev Byte := BitVec 8

/-- R8: a word, bits 15..0 (the spec's `u16`). -/
abbrev Word := BitVec 16

end Sys2Proof
end

