-- ==== Sys2Proof/Config.lean ====
section
/-! DEFINITION. The parameters of the hardware (spec R7) and the reset values (spec R35).
No value of this core is left free: the spec settles every point it found open (92_eei_decisions.md,
93_implementation_defined.md), so there is no opaque constant here. -/

namespace Sys2Proof

/-- R7 `DMEM_SIZE`: data memory is 65536 bytes (R42). -/
def Config.dmemSize : Nat := 65536

/-- R7 `IMEM_SIZE`: the longest image the loader may supply, 65535 bytes.
DESIGN CHOICE of the spec (D5), log entry 3. -/
def Config.imemMax : Nat := 65535

/-- The length in bytes of the longest instruction (R60, R82). -/
def Config.maxInstrBytes : Nat := 6

/-- What a data-memory byte that nothing has written reads as (R42, R35).
DESIGN CHOICE of the spec (D4), log entry 2. -/
def Config.unlistedByte : Byte := 0x00#8

/-- R35: the reset value of each of the eight registers.
DESIGN CHOICE of the spec (D1), log entry 2. -/
def Config.resetRegister : Word := 0x0000#16

/-- R35: the reset value of `ZF` and of `SF`.
DESIGN CHOICE of the spec (D2), log entry 2. -/
def Config.resetFlag : Bool := false

/-- R35, R201: the reset value of `ip`, the entry point.
DESIGN CHOICE of the spec (D3), log entry 2. -/
def Config.resetIp : Word := 0x0000#16

end Sys2Proof
end

