-- ==== Sys2Proof/Syntax.lean ====
section
/-! DEFINITION. The instructions of the core: one constructor of `Instr` per row of the encoding table
(spec R64, spec/opcode_table.json), holding every field of its encoding, and the operand model of the
decoder's output (spec R80, R81).

An `Instr` is the encoded instruction as syntax. It keeps the `D`, `S` and `mod` bits and the ignored bits, so
that the encoder can give back exactly the bytes that were decoded. The decoder's output RECORD (R80), which
does not keep them, is `Instruction`; it is computed from an `Instr` in Decode.lean. -/

namespace Sys2Proof

/-- R8: the width bit `W` of an encoding, 0 for byte and 1 for word. -/
inductive Width where
  | byte
  | word
  deriving DecidableEq, Repr

/-- R10: the eight word-sized slots of the register file, in index order 0 to 7. -/
inductive Slot where
  | ax | cx | dx | bx | sp | bp | si | di
  deriving DecidableEq, Repr

/-- R81 `RegisterAccess`: `(index 0..7, W)`. -/
structure RegAccess where
  index : BitVec 3
  w     : Width
  deriving DecidableEq, Repr

/-- R81 `MemoryAccess`: up to two base registers, a 16-bit displacement, a width. `none` is the sentinel that
marks a base term as unused. -/
structure MemAccess where
  base1 : Option Slot
  base2 : Option Slot
  disp  : Word
  w     : Width
  deriving DecidableEq, Repr

/-- An operand that can be written: the destination of `mov`, `add`, `sub`, `cmp` is always one of these
(R81, the table of variants per shape). -/
inductive Place where
  | register (a : RegAccess)
  | memory   (m : MemAccess)
  deriving DecidableEq, Repr

/-- An operand that can be read: the source of `mov`, `add`, `sub`, `cmp` (R81). -/
inductive Source where
  | place     (p : Place)
  | immediate (v : Word)
  deriving DecidableEq, Repr

/-- R81 `Operand`: the tagged variant of the decoder's output record. -/
inductive Operand where
  | register  (a : RegAccess)
  | memory    (m : MemAccess)
  | immediate (v : Word)
  | none
  deriving DecidableEq, Repr

/-- R80: the closed enumeration of the 24 mnemonics. -/
inductive Mnemonic where
  | mov | add | sub | cmp
  | jo | jno | jb | jnb | je | jne | jbe | jnbe | js | jns | jp | jnp | jl | jnl | jle | jnle
  | loopnz | loopz | loop | jcxz
  deriving DecidableEq, Repr

/-- The `mod` and `rm` fields of a mod-reg-r/m byte with the displacement bytes that follow it (R68, R76). -/
inductive RmField where
  /-- `mod = 11`: a register operand. -/
  | register (rm : BitVec 3)
  /-- `mod = 00`, `rm` not 110: base registers, no displacement. -/
  | noDisp   (rm : BitVec 3)
  /-- `mod = 00`, `rm = 110`: a 16-bit direct address. -/
  | direct   (addr : Word)
  /-- `mod = 01`: base registers and a signed 8-bit displacement. -/
  | disp8    (rm : BitVec 3) (d : Byte)
  /-- `mod = 10`: base registers and a 16-bit displacement. -/
  | disp16   (rm : BitVec 3) (d : Word)
  deriving DecidableEq, Repr

/-- The immediate bytes of an instruction, one or two (R70, R73, R74). -/
inductive ImmField where
  | imm8  (b : Byte)
  | imm16 (v : Word)
  deriving DecidableEq, Repr

/-- The 32 rows of the encoding table (R64). Fields: `d` the direction bit (true is `D = 1`), `s` the sign-extend
bit, `w` the width bit, `reg` the register field, `rm` the r/m operand with its displacement, `imm` the immediate,
`ignored` the three bits of the second byte that no rule tests (R70), `disp` the displacement byte of a branch. -/
inductive Instr where
  | movRmReg  (d : Bool) (w : Width) (reg : BitVec 3) (rm : RmField)
  | movImmRm  (w : Width) (ignored : BitVec 3) (rm : RmField) (imm : ImmField)
  | movImmReg (w : Width) (reg : BitVec 3) (imm : ImmField)
  | addRmReg  (d : Bool) (w : Width) (reg : BitVec 3) (rm : RmField)
  | subRmReg  (d : Bool) (w : Width) (reg : BitVec 3) (rm : RmField)
  | cmpRmReg  (d : Bool) (w : Width) (reg : BitVec 3) (rm : RmField)
  | addImmRm  (s : Bool) (w : Width) (rm : RmField) (imm : ImmField)
  | subImmRm  (s : Bool) (w : Width) (rm : RmField) (imm : ImmField)
  | cmpImmRm  (s : Bool) (w : Width) (rm : RmField) (imm : ImmField)
  | addImmAcc (w : Width) (imm : ImmField)
  | subImmAcc (w : Width) (imm : ImmField)
  | cmpImmAcc (w : Width) (imm : ImmField)
  | jo     (disp : Byte)
  | jno    (disp : Byte)
  | jb     (disp : Byte)
  | jnb    (disp : Byte)
  | je     (disp : Byte)
  | jne    (disp : Byte)
  | jbe    (disp : Byte)
  | jnbe   (disp : Byte)
  | js     (disp : Byte)
  | jns    (disp : Byte)
  | jp     (disp : Byte)
  | jnp    (disp : Byte)
  | jl     (disp : Byte)
  | jnl    (disp : Byte)
  | jle    (disp : Byte)
  | jnle   (disp : Byte)
  | loopnz (disp : Byte)
  | loopz  (disp : Byte)
  | loop   (disp : Byte)
  | jcxz   (disp : Byte)
  deriving DecidableEq, Repr

/-- R80: the decoder's output record. -/
structure Instruction where
  mnemonic : Mnemonic
  dst      : Operand
  src      : Operand
  address  : Nat
  bytes    : List Byte
  deriving DecidableEq, Repr

end Sys2Proof
end

