-- ==== Sys2Proof/WellFormed.lean ====
section
/-! DEFINITION. Which terms of `Instr` are instructions of the core: the ones an encoding exists for. Three checks:
an r/m operand without displacement does not use `rm = 110` (R76), the immediate of the immediate-with-r/m shape has
the size R71 gives it, and the immediate of the two shapes without an r/m operand has the size of the width bit
(R73, R74). -/

namespace Sys2Proof

/-- R76: `mod = 00` with `rm = 110` is the direct address, so `noDisp` never holds 110. -/
def RmField.wellFormed : RmField → Bool
  | .register _ => true
  | .noDisp rm  => rm != 0b110#3
  | .direct _   => true
  | .disp8 _ _  => true
  | .disp16 _ _ => true

/-- Whether an immediate field holds two bytes. -/
def ImmField.isTwoBytes : ImmField → Bool
  | .imm8 _  => false
  | .imm16 _ => true

/-- R73, R74, R71 for `mov`: two bytes exactly when the operation is wide. -/
def ImmField.fitsWidth (imm : ImmField) (w : Width) : Bool :=
  imm.isTwoBytes == (w == .word)

/-- R71 for `add`, `sub`, `cmp`: two bytes exactly when the operation is wide and the sign-extend bit is clear. -/
def ImmField.fitsSignExtend (imm : ImmField) (s : Bool) (w : Width) : Bool :=
  imm.isTwoBytes == (w == .word && !s)

/-- The instructions that have an encoding. -/
def Instr.wellFormed : Instr → Bool
  | .movRmReg _ _ _ rm   => rm.wellFormed
  | .movImmRm w _ rm imm => rm.wellFormed && imm.fitsWidth w
  | .movImmReg w _ imm   => imm.fitsWidth w
  | .addRmReg _ _ _ rm   => rm.wellFormed
  | .subRmReg _ _ _ rm   => rm.wellFormed
  | .cmpRmReg _ _ _ rm   => rm.wellFormed
  | .addImmRm s w rm imm => rm.wellFormed && imm.fitsSignExtend s w
  | .subImmRm s w rm imm => rm.wellFormed && imm.fitsSignExtend s w
  | .cmpImmRm s w rm imm => rm.wellFormed && imm.fitsSignExtend s w
  | .addImmAcc w imm     => imm.fitsWidth w
  | .subImmAcc w imm     => imm.fitsWidth w
  | .cmpImmAcc w imm     => imm.fitsWidth w
  | .jo _     => true
  | .jno _    => true
  | .jb _     => true
  | .jnb _    => true
  | .je _     => true
  | .jne _    => true
  | .jbe _    => true
  | .jnbe _   => true
  | .js _     => true
  | .jns _    => true
  | .jp _     => true
  | .jnp _    => true
  | .jl _     => true
  | .jnl _    => true
  | .jle _    => true
  | .jnle _   => true
  | .loopnz _ => true
  | .loopz _  => true
  | .loop _   => true
  | .jcxz _   => true

end Sys2Proof
end

