-- ==== Sys2Proof/Decode.lean ====
section
/-! DEFINITION. The decoder (spec 30_encoding.md): the bit-field extractor, the encoding table of 32 rows, the
matcher, the five shape routines, the r/m operand constructor, the decoder's output record; then the encoder, written
from the same table, and the host's entry `decodeTableWord`. -/

namespace Sys2Proof

/-! ## Bytes and words -/

/-- R9: a byte widened to 16 bits by copying bit 7 into bits 15..8. -/
def sext16 (b : Byte) : Word := b.signExtend 16

/-- R9: a byte widened to 16 bits with bits 15..8 zero. -/
def zext16 (b : Byte) : Word := b.setWidth 16

/-- R8: `{hi, lo}`, `hi * 256 + lo`. -/
def pair (hi lo : Byte) : Word := hi ++ lo

/-- `v[7:0]`. -/
def lowByte (v : Word) : Byte := v.extractLsb' 0 8

/-- `v[15:8]`. -/
def highByte (v : Word) : Byte := v.extractLsb' 8 8

/-! ## The bit-field extractor -/

/-- R61: a field of one byte, given by its mask. The shift is derived from the mask. -/
structure BitField where
  mask : Byte
  deriving DecidableEq, Repr

/-- R61: the position of the lowest set bit of the mask. -/
def BitField.shift (f : BitField) : Nat :=
  ((List.range 8).find? fun i => f.mask.getLsbD i).getD 8

/-- R61: the right-justified field value. -/
def BitField.read (f : BitField) (b : Byte) : Byte := (b &&& f.mask) >>> f.shift

/-- R62: a match condition, written as the spec writes it: it matches iff `(byte AND mask) = pattern`. The sentinel
"always matches" is mask 0, pattern 0. -/
structure MatchCondition where
  mask    : Byte
  pattern : Byte
  deriving DecidableEq, Repr

/-- R62. -/
def MatchCondition.holds (c : MatchCondition) (b : Byte) : Bool := b &&& c.mask == c.pattern

/-- R62: the sentinel. -/
def MatchCondition.always : MatchCondition := ⟨0x00#8, 0x00#8⟩

/-! ## The fields of the first and second byte -/

/-- R67: `D`, bit 1 of the first byte (shape `RM_REG`). -/
def fieldD : BitField := ⟨0x02#8⟩
/-- R67: `S`, bit 1 of the first byte (shape `IMM_RM`). -/
def fieldS : BitField := ⟨0x02#8⟩
/-- R67: `W`, bit 0 of the first byte (shapes `RM_REG`, `IMM_RM`, `IMM_ACC`). -/
def fieldW : BitField := ⟨0x01#8⟩
/-- R67: `W`, bit 3 of the first byte (shape `IMM_REG`). -/
def fieldShortW : BitField := ⟨0x08#8⟩
/-- R67: `reg`, bits 2..0 of the first byte (shape `IMM_REG`). -/
def fieldShortReg : BitField := ⟨0x07#8⟩
/-- R68: `mod`, bits 7..6 of the second byte. -/
def fieldMod : BitField := ⟨0xC0#8⟩
/-- R68: `reg`, bits 5..3 of the second byte. -/
def fieldReg : BitField := ⟨0x38#8⟩
/-- R68: `rm`, bits 2..0 of the second byte. -/
def fieldRm : BitField := ⟨0x07#8⟩

/-- A one-bit field as a truth value. -/
def BitField.flag (f : BitField) (b : Byte) : Bool := f.read b != 0x00#8

/-- A one-bit field as a width: 1 is word, 0 is byte (R8). -/
def BitField.width (f : BitField) (b : Byte) : Width := if f.flag b then .word else .byte

/-- A three-bit field. -/
def BitField.code (f : BitField) (b : Byte) : BitVec 3 := (f.read b).setWidth 3

/-! ## The encoding table -/

/-- R63: the shape of a row, with the constructor of `Instr` the row decodes to. `immRmMov` is the shape `IMM_RM` as
`mov` uses it: no `S` bit, and the middle field of the second byte ignored (R70). -/
inductive Layout where
  | rmReg    (mk : Bool → Width → BitVec 3 → RmField → Instr)
  | immRmMov (mk : Width → BitVec 3 → RmField → ImmField → Instr)
  | immRm    (mk : Bool → Width → RmField → ImmField → Instr)
  | immAcc   (mk : Width → ImmField → Instr)
  | immReg   (mk : Width → BitVec 3 → ImmField → Instr)
  | branch   (mk : Byte → Instr)

/-- R63: one row of the encoding table. -/
structure Encoding where
  mnemonic  : Mnemonic
  primary   : MatchCondition
  secondary : MatchCondition
  layout    : Layout

/-- R64, rows 1 to 12. -/
def dataRows : List Encoding :=
  [ ⟨.mov, ⟨0xFC#8, 0x88#8⟩, .always,          .rmReg .movRmReg⟩,
    ⟨.mov, ⟨0xFE#8, 0xC6#8⟩, .always,          .immRmMov .movImmRm⟩,
    ⟨.mov, ⟨0xF0#8, 0xB0#8⟩, .always,          .immReg .movImmReg⟩,
    ⟨.add, ⟨0xFC#8, 0x00#8⟩, .always,          .rmReg .addRmReg⟩,
    ⟨.sub, ⟨0xFC#8, 0x28#8⟩, .always,          .rmReg .subRmReg⟩,
    ⟨.cmp, ⟨0xFC#8, 0x38#8⟩, .always,          .rmReg .cmpRmReg⟩,
    ⟨.add, ⟨0xFC#8, 0x80#8⟩, ⟨0x38#8, 0x00#8⟩, .immRm .addImmRm⟩,
    ⟨.sub, ⟨0xFC#8, 0x80#8⟩, ⟨0x38#8, 0x28#8⟩, .immRm .subImmRm⟩,
    ⟨.cmp, ⟨0xFC#8, 0x80#8⟩, ⟨0x38#8, 0x38#8⟩, .immRm .cmpImmRm⟩,
    ⟨.add, ⟨0xFE#8, 0x04#8⟩, .always,          .immAcc .addImmAcc⟩,
    ⟨.sub, ⟨0xFE#8, 0x2C#8⟩, .always,          .immAcc .subImmAcc⟩,
    ⟨.cmp, ⟨0xFE#8, 0x3C#8⟩, .always,          .immAcc .cmpImmAcc⟩ ]

/-- R64, rows 13 to 28: the conditional jumps. PRESUMED by the spec (G1) but for `je` and `jne`, log entry 7. -/
def jumpRows : List Encoding :=
  [ ⟨.jo,   ⟨0xFF#8, 0x70#8⟩, .always, .branch .jo⟩,
    ⟨.jno,  ⟨0xFF#8, 0x71#8⟩, .always, .branch .jno⟩,
    ⟨.jb,   ⟨0xFF#8, 0x72#8⟩, .always, .branch .jb⟩,
    ⟨.jnb,  ⟨0xFF#8, 0x73#8⟩, .always, .branch .jnb⟩,
    ⟨.je,   ⟨0xFF#8, 0x74#8⟩, .always, .branch .je⟩,
    ⟨.jne,  ⟨0xFF#8, 0x75#8⟩, .always, .branch .jne⟩,
    ⟨.jbe,  ⟨0xFF#8, 0x76#8⟩, .always, .branch .jbe⟩,
    ⟨.jnbe, ⟨0xFF#8, 0x77#8⟩, .always, .branch .jnbe⟩,
    ⟨.js,   ⟨0xFF#8, 0x78#8⟩, .always, .branch .js⟩,
    ⟨.jns,  ⟨0xFF#8, 0x79#8⟩, .always, .branch .jns⟩,
    ⟨.jp,   ⟨0xFF#8, 0x7A#8⟩, .always, .branch .jp⟩,
    ⟨.jnp,  ⟨0xFF#8, 0x7B#8⟩, .always, .branch .jnp⟩,
    ⟨.jl,   ⟨0xFF#8, 0x7C#8⟩, .always, .branch .jl⟩,
    ⟨.jnl,  ⟨0xFF#8, 0x7D#8⟩, .always, .branch .jnl⟩,
    ⟨.jle,  ⟨0xFF#8, 0x7E#8⟩, .always, .branch .jle⟩,
    ⟨.jnle, ⟨0xFF#8, 0x7F#8⟩, .always, .branch .jnle⟩ ]

/-- R64, rows 29 to 32: the loop family and `jcxz`. PRESUMED by the spec (G1) but for `loop`, log entry 7. -/
def loopRows : List Encoding :=
  [ ⟨.loopnz, ⟨0xFF#8, 0xE0#8⟩, .always, .branch .loopnz⟩,
    ⟨.loopz,  ⟨0xFF#8, 0xE1#8⟩, .always, .branch .loopz⟩,
    ⟨.loop,   ⟨0xFF#8, 0xE2#8⟩, .always, .branch .loop⟩,
    ⟨.jcxz,   ⟨0xFF#8, 0xE3#8⟩, .always, .branch .jcxz⟩ ]

/-- R64: the table of 32 rows, in the declared order. -/
def table : List Encoding := dataRows ++ jumpRows ++ loopRows

/-- R65: both conditions of a row hold of the first two bytes. -/
def Encoding.holds (e : Encoding) (b0 b1 : Byte) : Bool :=
  e.primary.holds b0 && e.secondary.holds b1

/-- R65: the matcher, the first row in declared order that matches. -/
def findRow (b0 b1 : Byte) : Option Encoding := table.find? fun e => e.holds b0 b1

/-! ## Reading bytes -/

/-- R87 `consume`: the next byte, none at the end of the image. -/
def takeByte : List Byte → Option (Byte × List Byte)
  | []      => none
  | b :: bs => some (b, bs)

/-- R79: two bytes, the low byte first. -/
def takeWord : List Byte → Option (Word × List Byte)
  | lo :: hi :: bs => some (pair hi lo, bs)
  | _              => none

/-- R71: how many bytes the immediate of the shape `IMM_RM` takes. -/
def immBytes (isMov s : Bool) (w : Width) : Nat :=
  if w = .word ∧ (isMov = true ∨ s = false) then 2 else 1

/-- R73, R74: how many bytes the immediate of the shapes `IMM_ACC` and `IMM_REG` takes. -/
def immBytesOfWidth : Width → Nat
  | .byte => 1
  | .word => 2

/-- An immediate of one or two bytes. -/
def takeImm (n : Nat) (bs : List Byte) : Option (ImmField × List Byte) :=
  if n = 2 then
    (takeWord bs).map fun r => (.imm16 r.1, r.2)
  else
    (takeByte bs).map fun r => (.imm8 r.1, r.2)

/-- R76: the r/m operand selected by `mod` and `rm`, with the displacement bytes it consumes. -/
def takeRm (mod : Byte) (rm : BitVec 3) (bs : List Byte) : Option (RmField × List Byte) :=
  if mod = 0b11#8 then
    some (.register rm, bs)
  else if mod = 0b00#8 then
    if rm = 0b110#3 then (takeWord bs).map fun r => (.direct r.1, r.2)
    else some (.noDisp rm, bs)
  else if mod = 0b01#8 then
    (takeByte bs).map fun r => (.disp8 rm r.1, r.2)
  else
    (takeWord bs).map fun r => (.disp16 rm r.1, r.2)

/-- The second byte `m` and the r/m operand it selects. -/
def takeModRm (bs : List Byte) : Option (Byte × RmField × List Byte) := do
  let (m, bs) ← takeByte bs
  let (rm, bs) ← takeRm (fieldMod.read m) (fieldRm.code m) bs
  some (m, rm, bs)

/-! ## The shape routines -/

/-- R69, R70, R73, R74, R75: the routine of a shape, run after the first byte `b0` is consumed. None when a byte is
missing. -/
def Layout.parse (l : Layout) (b0 : Byte) (bs : List Byte) : Option (Instr × List Byte) :=
  match l with
  | .rmReg mk => do
    let (m, rm, bs) ← takeModRm bs
    some (mk (fieldD.flag b0) (fieldW.width b0) (fieldReg.code m) rm, bs)
  | .immRmMov mk => do
    let (m, rm, bs) ← takeModRm bs
    let (imm, bs) ← takeImm (immBytes true false (fieldW.width b0)) bs
    some (mk (fieldW.width b0) (fieldReg.code m) rm imm, bs)
  | .immRm mk => do
    let (_, rm, bs) ← takeModRm bs
    let (imm, bs) ← takeImm (immBytes false (fieldS.flag b0) (fieldW.width b0)) bs
    some (mk (fieldS.flag b0) (fieldW.width b0) rm imm, bs)
  | .immAcc mk => do
    let (imm, bs) ← takeImm (immBytesOfWidth (fieldW.width b0)) bs
    some (mk (fieldW.width b0) imm, bs)
  | .immReg mk => do
    let (imm, bs) ← takeImm (immBytesOfWidth (fieldShortW.width b0)) bs
    some (mk (fieldShortW.width b0) (fieldShortReg.code b0) imm, bs)
  | .branch mk => do
    let (d, bs) ← takeByte bs
    some (mk d, bs)

/-! ## The decoder -/

/-- R87: the three results of the decoder. `ok` carries the instruction and the bytes after it. -/
inductive DecodeResult where
  | ok (i : Instr) (rest : List Byte)
  | unrecognized
  | truncated
  deriving DecidableEq, Repr

/-- R87 `try_decode`, on the bytes of instruction memory from the offset on: total on any bytes. The order of the two
failure tests is the spec's decision D12, log entry 11. -/
def decode : List Byte → DecodeResult
  | [] => .truncated
  | b0 :: rest =>
    if table.any fun e => e.primary.holds b0 then
      match rest with
      | [] => .truncated
      | b1 :: _ =>
        match findRow b0 b1 with
        | none => .unrecognized
        | some e =>
          match e.layout.parse b0 rest with
          | none => .truncated
          | some (i, after) => .ok i after
    else .unrecognized

/-! ## The operands of a decoded instruction -/

/-- R77: the base-register pair of an r/m code. Six of the eight entries are PRESUMED by the spec (G2), log entry 8. -/
def basePair (rm : BitVec 3) : Option Slot × Option Slot :=
  match rm.toNat with
  | 0 => (some .bx, some .si)
  | 1 => (some .bx, some .di)
  | 2 => (some .bp, some .si)
  | 3 => (some .bp, some .di)
  | 4 => (some .si, none)
  | 5 => (some .di, none)
  | 6 => (some .bp, none)
  | _ => (some .bx, none)

/-- R76, R78: the operand of an r/m field; an 8-bit displacement is sign-extended when stored. -/
def RmField.place (w : Width) : RmField → Place
  | .register rm => .register ⟨rm, w⟩
  | .noDisp rm   => .memory ⟨(basePair rm).1, (basePair rm).2, 0x0000#16, w⟩
  | .direct addr => .memory ⟨none, none, addr, w⟩
  | .disp8 rm d  => .memory ⟨(basePair rm).1, (basePair rm).2, sext16 d, w⟩
  | .disp16 rm d => .memory ⟨(basePair rm).1, (basePair rm).2, d, w⟩

/-- R70, R71, R73, R74: the stored value of an immediate. One byte is zero-extended in a byte operation (the spec's
decision D15, log entry 12) and sign-extended in a word operation. -/
def ImmField.value (w : Width) : ImmField → Word
  | .imm16 v => v
  | .imm8 b  => match w with
    | .byte => zext16 b
    | .word => sext16 b

/-- R69: the destination of the shape `RM_REG`, the register when `D = 1`. -/
def rmRegDst (d : Bool) (w : Width) (reg : BitVec 3) (rm : RmField) : Place :=
  if d then .register ⟨reg, w⟩ else rm.place w

/-- R69: the source of the shape `RM_REG`, the r/m operand when `D = 1`. -/
def rmRegSrc (d : Bool) (w : Width) (reg : BitVec 3) (rm : RmField) : Source :=
  if d then .place (rm.place w) else .place (.register ⟨reg, w⟩)

/-- R73: the destination of the shape `IMM_ACC`, register index 0. -/
def accumulator (w : Width) : Place := .register ⟨0b000#3, w⟩

/-- R81: a destination as an operand of the output record. -/
def Place.operand : Place → Operand
  | .register a => .register a
  | .memory m   => .memory m

/-- R81: a source as an operand of the output record. -/
def Source.operand : Source → Operand
  | .place p     => p.operand
  | .immediate v => .immediate v

/-- R80: the mnemonic of an instruction. -/
def Instr.mnemonic : Instr → Mnemonic
  | .movRmReg _ _ _ _ => .mov
  | .movImmRm _ _ _ _ => .mov
  | .movImmReg _ _ _  => .mov
  | .addRmReg _ _ _ _ => .add
  | .subRmReg _ _ _ _ => .sub
  | .cmpRmReg _ _ _ _ => .cmp
  | .addImmRm _ _ _ _ => .add
  | .subImmRm _ _ _ _ => .sub
  | .cmpImmRm _ _ _ _ => .cmp
  | .addImmAcc _ _    => .add
  | .subImmAcc _ _    => .sub
  | .cmpImmAcc _ _    => .cmp
  | .jo _     => .jo
  | .jno _    => .jno
  | .jb _     => .jb
  | .jnb _    => .jnb
  | .je _     => .je
  | .jne _    => .jne
  | .jbe _    => .jbe
  | .jnbe _   => .jnbe
  | .js _     => .js
  | .jns _    => .jns
  | .jp _     => .jp
  | .jnp _    => .jnp
  | .jl _     => .jl
  | .jnl _    => .jnl
  | .jle _    => .jle
  | .jnle _   => .jnle
  | .loopnz _ => .loopnz
  | .loopz _  => .loopz
  | .loop _   => .loop
  | .jcxz _   => .jcxz

/-- The displacement byte of a branch, none for the other shapes (R75). -/
def Instr.branchDisp : Instr → Option Byte
  | .movRmReg _ _ _ _ => none
  | .movImmRm _ _ _ _ => none
  | .movImmReg _ _ _  => none
  | .addRmReg _ _ _ _ => none
  | .subRmReg _ _ _ _ => none
  | .cmpRmReg _ _ _ _ => none
  | .addImmRm _ _ _ _ => none
  | .subImmRm _ _ _ _ => none
  | .cmpImmRm _ _ _ _ => none
  | .addImmAcc _ _    => none
  | .subImmAcc _ _    => none
  | .cmpImmAcc _ _    => none
  | .jo d     => some d
  | .jno d    => some d
  | .jb d     => some d
  | .jnb d    => some d
  | .je d     => some d
  | .jne d    => some d
  | .jbe d    => some d
  | .jnbe d   => some d
  | .js d     => some d
  | .jns d    => some d
  | .jp d     => some d
  | .jnp d    => some d
  | .jl d     => some d
  | .jnl d    => some d
  | .jle d    => some d
  | .jnle d   => some d
  | .loopnz d => some d
  | .loopz d  => some d
  | .loop d   => some d
  | .jcxz d   => some d

/-- The destination and source of the instructions that move or compute data (R69, R70, R73, R74), none for a
branch. -/
def Instr.dataOperands : Instr → Option (Place × Source)
  | .movRmReg d w reg rm => some (rmRegDst d w reg rm, rmRegSrc d w reg rm)
  | .movImmRm w _ rm imm => some (rm.place w, .immediate (imm.value w))
  | .movImmReg w reg imm => some (.register ⟨reg, w⟩, .immediate (imm.value w))
  | .addRmReg d w reg rm => some (rmRegDst d w reg rm, rmRegSrc d w reg rm)
  | .subRmReg d w reg rm => some (rmRegDst d w reg rm, rmRegSrc d w reg rm)
  | .cmpRmReg d w reg rm => some (rmRegDst d w reg rm, rmRegSrc d w reg rm)
  | .addImmRm _ w rm imm => some (rm.place w, .immediate (imm.value w))
  | .subImmRm _ w rm imm => some (rm.place w, .immediate (imm.value w))
  | .cmpImmRm _ w rm imm => some (rm.place w, .immediate (imm.value w))
  | .addImmAcc w imm     => some (accumulator w, .immediate (imm.value w))
  | .subImmAcc w imm     => some (accumulator w, .immediate (imm.value w))
  | .cmpImmAcc w imm     => some (accumulator w, .immediate (imm.value w))
  | .jo _     => none
  | .jno _    => none
  | .jb _     => none
  | .jnb _    => none
  | .je _     => none
  | .jne _    => none
  | .jbe _    => none
  | .jnbe _   => none
  | .js _     => none
  | .jns _    => none
  | .jp _     => none
  | .jnp _    => none
  | .jl _     => none
  | .jnl _    => none
  | .jle _    => none
  | .jnle _   => none
  | .loopnz _ => none
  | .loopz _  => none
  | .loop _   => none
  | .jcxz _   => none

/-- R80, R75: the destination operand of the output record; a branch holds its displacement, zero-extended. -/
def Instr.dst (i : Instr) : Operand :=
  match i.dataOperands, i.branchDisp with
  | some (p, _), _    => p.operand
  | none, some d      => .immediate (zext16 d)
  | none, none        => .none

/-- R80, R75: the source operand of the output record, `None` for a branch. -/
def Instr.src (i : Instr) : Operand :=
  match i.dataOperands with
  | some (_, v) => v.operand
  | none        => .none

/-- R80: the output record of an instruction decoded at `address` from the bytes `bytes`. -/
def Instr.record (i : Instr) (address : Nat) (bytes : List Byte) : Instruction :=
  ⟨i.mnemonic, i.dst, i.src, address, bytes⟩

/-! ## Lengths -/

/-- R82 `DispBytes`. -/
def RmField.dispBytes : RmField → Nat
  | .register _ => 0
  | .noDisp _   => 0
  | .direct _   => 2
  | .disp8 _ _  => 1
  | .disp16 _ _ => 2

/-- R82: the length of an instruction in bytes. -/
def Instr.length : Instr → Nat
  | .movRmReg _ _ _ rm => 2 + rm.dispBytes
  | .movImmRm w _ rm _ => 2 + rm.dispBytes + immBytes true false w
  | .movImmReg w _ _   => 1 + immBytesOfWidth w
  | .addRmReg _ _ _ rm => 2 + rm.dispBytes
  | .subRmReg _ _ _ rm => 2 + rm.dispBytes
  | .cmpRmReg _ _ _ rm => 2 + rm.dispBytes
  | .addImmRm s w rm _ => 2 + rm.dispBytes + immBytes false s w
  | .subImmRm s w rm _ => 2 + rm.dispBytes + immBytes false s w
  | .cmpImmRm s w rm _ => 2 + rm.dispBytes + immBytes false s w
  | .addImmAcc w _     => 1 + immBytesOfWidth w
  | .subImmAcc w _     => 1 + immBytesOfWidth w
  | .cmpImmAcc w _     => 1 + immBytesOfWidth w
  | .jo _     => 2
  | .jno _    => 2
  | .jb _     => 2
  | .jnb _    => 2
  | .je _     => 2
  | .jne _    => 2
  | .jbe _    => 2
  | .jnbe _   => 2
  | .js _     => 2
  | .jns _    => 2
  | .jp _     => 2
  | .jnp _    => 2
  | .jl _     => 2
  | .jnl _    => 2
  | .jle _    => 2
  | .jnle _   => 2
  | .loopnz _ => 2
  | .loopz _  => 2
  | .loop _   => 2
  | .jcxz _   => 2

/-! ## The encoder -/

/-- The width bit in bit 0. -/
def Width.bit : Width → Byte
  | .byte => 0x00#8
  | .word => 0x01#8

/-- The width bit of the short `mov` form, in bit 3 (R67). -/
def Width.bit3 : Width → Byte
  | .byte => 0x00#8
  | .word => 0x08#8

/-- The `D` or `S` bit, in bit 1. -/
def bit1 (b : Bool) : Byte := if b then 0x02#8 else 0x00#8

/-- A word as two bytes, the low byte first (R79). -/
def wordBytes (v : Word) : List Byte := [lowByte v, highByte v]

/-- The `mod` field of an r/m operand (R76). -/
def RmField.modBits : RmField → BitVec 2
  | .register _ => 0b11#2
  | .noDisp _   => 0b00#2
  | .direct _   => 0b00#2
  | .disp8 _ _  => 0b01#2
  | .disp16 _ _ => 0b10#2

/-- The `rm` field of an r/m operand (R76). -/
def RmField.rmBits : RmField → BitVec 3
  | .register rm => rm
  | .noDisp rm   => rm
  | .direct _    => 0b110#3
  | .disp8 rm _  => rm
  | .disp16 rm _ => rm

/-- The displacement bytes of an r/m operand (R76, R79). -/
def RmField.trailing : RmField → List Byte
  | .register _ => []
  | .noDisp _   => []
  | .direct a   => wordBytes a
  | .disp8 _ d  => [d]
  | .disp16 _ d => wordBytes d

/-- R68: the second byte, `mod` on top, then `reg`, then `rm`. -/
def modRegRm (mod : BitVec 2) (reg rm : BitVec 3) : Byte := (mod ++ reg ++ rm : BitVec (2 + 3 + 3))

/-- The second byte and the displacement bytes of an r/m operand. -/
def RmField.encode (reg : BitVec 3) (rm : RmField) : List Byte :=
  modRegRm rm.modBits reg rm.rmBits :: rm.trailing

/-- The immediate bytes. -/
def ImmField.encode : ImmField → List Byte
  | .imm8 b  => [b]
  | .imm16 v => wordBytes v

/-- The shape `RM_REG` (R69): `oooooodw mmrrrbbb`. -/
def encodeRmReg (opcode : Byte) (d : Bool) (w : Width) (reg : BitVec 3) (rm : RmField) : List Byte :=
  (opcode ||| bit1 d ||| w.bit) :: rm.encode reg

/-- The shape `IMM_RM` of `add`, `sub`, `cmp` (R70, R72): `100000sw mmooobbb`. -/
def encodeImmRm (op : BitVec 3) (s : Bool) (w : Width) (rm : RmField) (imm : ImmField) : List Byte :=
  (0x80#8 ||| bit1 s ||| w.bit) :: rm.encode op ++ imm.encode

/-- The shape `IMM_ACC` (R73): `ooooo10w`. -/
def encodeImmAcc (opcode : Byte) (w : Width) (imm : ImmField) : List Byte :=
  (opcode ||| w.bit) :: imm.encode

/-- The bytes of an instruction (R60, R64). -/
def encode : Instr → List Byte
  | .movRmReg d w reg rm   => encodeRmReg 0x88#8 d w reg rm
  | .movImmRm w ign rm imm => (0xC6#8 ||| w.bit) :: rm.encode ign ++ imm.encode
  | .movImmReg w reg imm   => (0xB0#8 ||| w.bit3 ||| reg.setWidth 8) :: imm.encode
  | .addRmReg d w reg rm   => encodeRmReg 0x00#8 d w reg rm
  | .subRmReg d w reg rm   => encodeRmReg 0x28#8 d w reg rm
  | .cmpRmReg d w reg rm   => encodeRmReg 0x38#8 d w reg rm
  | .addImmRm s w rm imm   => encodeImmRm 0b000#3 s w rm imm
  | .subImmRm s w rm imm   => encodeImmRm 0b101#3 s w rm imm
  | .cmpImmRm s w rm imm   => encodeImmRm 0b111#3 s w rm imm
  | .addImmAcc w imm       => encodeImmAcc 0x04#8 w imm
  | .subImmAcc w imm       => encodeImmAcc 0x2C#8 w imm
  | .cmpImmAcc w imm       => encodeImmAcc 0x3C#8 w imm
  | .jo d     => [0x70#8, d]
  | .jno d    => [0x71#8, d]
  | .jb d     => [0x72#8, d]
  | .jnb d    => [0x73#8, d]
  | .je d     => [0x74#8, d]
  | .jne d    => [0x75#8, d]
  | .jbe d    => [0x76#8, d]
  | .jnbe d   => [0x77#8, d]
  | .js d     => [0x78#8, d]
  | .jns d    => [0x79#8, d]
  | .jp d     => [0x7A#8, d]
  | .jnp d    => [0x7B#8, d]
  | .jl d     => [0x7C#8, d]
  | .jnl d    => [0x7D#8, d]
  | .jle d    => [0x7E#8, d]
  | .jnle d   => [0x7F#8, d]
  | .loopnz d => [0xE0#8, d]
  | .loopz d  => [0xE1#8, d]
  | .loop d   => [0xE2#8, d]
  | .jcxz d   => [0xE3#8, d]

/-! ## Words numbered as spec/opcode_table.json numbers them -/

/-- The bytes of an instruction whose bits are `w`, bit 0 the least significant bit of the first byte, every bit from
`nbits` on zero, up to the longest instruction. -/
def tableWordBytes (nbits w : Nat) : List Byte :=
  (List.range Config.maxInstrBytes).map fun k => BitVec.ofNat 8 ((w % 2 ^ nbits) >>> (8 * k))

/-- The instruction the decoder reads from an instruction whose bits are `w`. -/
def decodeTableWord (nbits w : Nat) : Option Instr :=
  match decode (tableWordBytes nbits w) with
  | .ok i _       => some i
  | .unrecognized => none
  | .truncated    => none

end Sys2Proof
end

