-- ==== Sys2Proof/Machine/State.lean ====
section
/-! DEFINITION. The state of the machine (spec 10_state.md, 20_memory.md), the reasons a step can stop, and the state
after reset (R35). -/

namespace Sys2Proof.Machine

/-- R28 `status`: the run state of the Execution Engine. `halted` and `faulted` are terminal (R113). -/
inductive RunStatus where
  | running
  | halted
  | faulted
  deriving DecidableEq, Repr

/-- R28 `halt_reason`. -/
inductive HaltReason where
  | none
  | endOfProgram
  | unrecognizedOpcode
  | truncatedInstruction
  | memOutOfRange
  deriving DecidableEq, Repr

/-- R9, R181: the reasons of the spec's `raise Fault(reason)`. A fault is what an access primitive answers in place
of a value; the machine TAKES it (`State.raiseFault`), which is a next state with `status = Faulted`, so no step of
this machine ends in `Host.Outcome.fault`. -/
inductive Fault where
  /-- R46, R185: raised by a word access at effective address `0xFFFF`. Safe: the machine stops where the spec says
  it stops. -/
  | memOutOfRange
  deriving DecidableEq, Repr

/-- The refusals of the model. -/
inductive Refusal where
  /-- An instruction without a meaning, named by its mnemonic. Raised by no arm of this model. Safe. -/
  | notModelled (mnemonic : String)
  /-- R202, U11: raised by `step` when the loaded image is longer than 65535 bytes, which the spec refuses ("the loader
  must not start the core"). Safe: the model says nothing about such an image. Log entry 3. -/
  | imageTooLong
  deriving DecidableEq, Repr

/-- R10: the register file, eight word-sized slots. -/
structure RegFile where
  ax : Word
  cx : Word
  dx : Word
  bx : Word
  sp : Word
  bp : Word
  si : Word
  di : Word
  deriving DecidableEq, Repr

/-- R42: data memory, a list of addresses and bytes. An address that is not listed reads as `Config.unlistedByte`.
The canonical form is `Memory.wf`. -/
abbrev Memory := List Host.Cell

/-- The whole state (spec 10_state.md section 1), and the instruction memory. -/
structure State where
  /-- R10: `r[0..7]`. -/
  regs       : RegFile
  /-- R20: the offset of the next instruction in instruction memory. -/
  ip         : Word
  /-- R24: the zero flag. -/
  zf         : Bool
  /-- R24: the sign flag. -/
  sf         : Bool
  /-- R28. -/
  status     : RunStatus
  /-- R28. -/
  haltReason : HaltReason
  /-- R18: the target of the most recent register write. -/
  lastWrite  : Option RegAccess
  /-- R42: `DMEM`. -/
  dmem       : Memory
  /-- R41: `IMEM`, the loaded image; its length is `IMEM_SIZE`. A parameter of a run in the spec; held here so that
  the step has it, and changed by no step. DESIGN CHOICE, log entry 1. -/
  imem       : List Byte
  deriving DecidableEq, Repr

/-- R35: the machine right after reset, with the empty image (R202: legal, and it halts at once). Log entries 1
and 2. -/
def State.reset : State where
  regs :=
    ⟨Config.resetRegister, Config.resetRegister, Config.resetRegister, Config.resetRegister,
     Config.resetRegister, Config.resetRegister, Config.resetRegister, Config.resetRegister⟩
  ip         := Config.resetIp
  zf         := Config.resetFlag
  sf         := Config.resetFlag
  status     := .running
  haltReason := .none
  lastWrite  := none
  dmem       := []
  imem       := []

end Sys2Proof.Machine
end

