-- ==== Sys2Proof/Machine/Ops.lean ====
section
/-! DEFINITION. The named operations over registers, data memory, the instruction pointer and the run state, among
them the two ways the run stops: `State.raiseHalt` and `State.raiseFault` (spec R9, R181). There is no exception
vectoring and no return from a stop (R180, R188). -/

namespace Sys2Proof.Machine

/-! ## The register file -/

/-- R10: the slot of a word register index. -/
def slotOf (index : BitVec 3) : Slot :=
  match index.toNat with
  | 0 => .ax
  | 1 => .cx
  | 2 => .dx
  | 3 => .bx
  | 4 => .sp
  | 5 => .bp
  | 6 => .si
  | _ => .di

/-- R10: `r[i]`. -/
def RegFile.get (r : RegFile) : Slot → Word
  | .ax => r.ax
  | .cx => r.cx
  | .dx => r.dx
  | .bx => r.bx
  | .sp => r.sp
  | .bp => r.bp
  | .si => r.si
  | .di => r.di

/-- R10: `r[i] <- v`. -/
def RegFile.set (r : RegFile) (i : Slot) (v : Word) : RegFile :=
  match i with
  | .ax => { r with ax := v }
  | .cx => { r with cx := v }
  | .dx => { r with dx := v }
  | .bx => { r with bx := v }
  | .sp => { r with sp := v }
  | .bp => { r with bp := v }
  | .si => { r with si := v }
  | .di => { r with di := v }

/-- R12: the slot whose half a byte index reaches, `index & 3`. -/
def byteSlot (index : BitVec 3) : Slot := slotOf (index &&& 0b011#3)

/-- R12: bit 2 of a byte index selects the high half. -/
def isHighHalf (index : BitVec 3) : Bool := index.getLsbD 2

/-- The slot a register access reads or writes (R11, R12). -/
def accessSlot (a : RegAccess) : Slot :=
  match a.w with
  | .word => slotOf a.index
  | .byte => byteSlot a.index

/-- R11, R12 `RegRead`: the whole slot, or the addressed half zero-extended. -/
def regRead (a : RegAccess) (r : RegFile) : Word :=
  match a.w with
  | .word => r.get (slotOf a.index)
  | .byte =>
    if isHighHalf a.index then zext16 (highByte (r.get (byteSlot a.index)))
    else zext16 (lowByte (r.get (byteSlot a.index)))

/-- R13, R14 `RegWrite`: the whole slot, or the addressed half with the other half kept. A byte write uses bits 7..0
of the value (the spec's decision D15, log entry 12). -/
def regWrite (a : RegAccess) (v : Word) (r : RegFile) : RegFile :=
  match a.w with
  | .word => r.set (slotOf a.index) v
  | .byte =>
    let old := r.get (byteSlot a.index)
    if isHighHalf a.index then r.set (byteSlot a.index) (pair (lowByte v) (lowByte old))
    else r.set (byteSlot a.index) (pair (highByte old) (lowByte v))

/-- R107, R18: a register write and the bookkeeping of its target. -/
def State.writeReg (s : State) (a : RegAccess) (v : Word) : State :=
  { s with regs := regWrite a v s.regs, lastWrite := some a }

/-! ## Data memory -/

/-- The canonical form of data memory: addresses strictly rising, inside the address space, and no byte that an
unlisted address reads as. -/
abbrev Memory.wf (m : Memory) : Prop :=
  m.Pairwise (fun c d => c.1 < d.1) ∧ ∀ c ∈ m, c.1 < Config.dmemSize ∧ c.2 ≠ Config.unlistedByte

/-- R42: the byte at an address. -/
def Memory.read (m : Memory) (a : Nat) : Byte :=
  match m with
  | []          => Config.unlistedByte
  | (k, b) :: t => if a = k then b else Memory.read t a

/-- A cell put at its place in the rising order. -/
def Memory.insert (m : Memory) (a : Nat) (b : Byte) : Memory :=
  match m with
  | []          => [(a, b)]
  | (k, c) :: t => if a < k then (a, b) :: (k, c) :: t else (k, c) :: Memory.insert t a b

/-- R42: a byte stored at an address; storing what an unlisted address reads as takes the cell away. -/
def Memory.write (m : Memory) (a : Nat) (b : Byte) : Memory :=
  let others := m.filter fun c => c.1 != a
  if b = Config.unlistedByte then others else Memory.insert others a b

/-- The effective address at which a word access reaches beyond data memory (R46). -/
def topAddress : Word := 0xFFFF#16

/-- R44 `MemRead`, little-endian (R43). -/
def memRead (m : Memory) (addr : Word) (w : Width) : Except Fault Word :=
  match w with
  | .byte => .ok (zext16 (m.read addr.toNat))
  | .word =>
    if addr = topAddress then .error .memOutOfRange
    else .ok (pair (m.read (addr.toNat + 1)) (m.read addr.toNat))

/-- R45 `MemWrite`, little-endian (R43). -/
def memWrite (m : Memory) (addr : Word) (w : Width) (v : Word) : Except Fault Memory :=
  match w with
  | .byte => .ok (m.write addr.toNat (lowByte v))
  | .word =>
    if addr = topAddress then .error .memOutOfRange
    else .ok ((m.write addr.toNat (lowByte v)).write (addr.toNat + 1) (highByte v))

/-- R48: a base term, 0 when it is unused. -/
def baseValue (r : RegFile) : Option Slot → Word
  | some b => r.get b
  | none   => 0x0000#16

/-- R48 `EA`: the sum of the base terms and the displacement, modulo 65536. -/
def effectiveAddress (m : MemAccess) (r : RegFile) : Word :=
  baseValue r m.base1 + baseValue r m.base2 + m.disp

/-! ## The instruction pointer -/

/-- R104: `ip` moved past an instruction of `n` bytes. -/
def State.advance (s : State) (n : Nat) : State := { s with ip := s.ip + BitVec.ofNat 16 n }

/-! ## The run state -/

/-- R28: the code of a halt reason (the spec's decision D12, log entry 11). -/
def HaltReason.code : HaltReason → Nat
  | .none                 => 0
  | .endOfProgram         => 1
  | .unrecognizedOpcode   => 2
  | .truncatedInstruction => 3
  | .memOutOfRange        => 4

/-- R28: the reason a fault leaves in `halt_reason`. -/
def Fault.reason : Fault → HaltReason
  | .memOutOfRange => .memOutOfRange

/-- R9, R181 `raise Halt(reason)`. -/
def State.raiseHalt (s : State) (r : HaltReason) : State :=
  { s with status := .halted, haltReason := r }

/-- R9, R181 `raise Fault(reason)`. -/
def State.raiseFault (s : State) (f : Fault) : State :=
  { s with status := .faulted, haltReason := f.reason }

/-- R109: how an instruction ends: in the state its effect leaves, or, when an access primitive raised a fault, in the
state it began in with the fault taken, no effect of the instruction done. -/
def State.finish (s : State) (effect : Except Fault State) : Host.Outcome State Fault Refusal :=
  match effect with
  | .ok t    => .next t
  | .error f => .next (s.raiseFault f)

/-! ## Reset and load -/

/-- R200, R201: reset of a machine in any state. Every piece of state takes its reset value; the image stays. -/
def State.resetCore (s : State) : State := { State.reset with imem := s.imem }

/-- R202: the state in which a run of an image begins, the image loaded in full before reset is released. -/
def State.boot (image : List Byte) : State := { State.reset with imem := image }

end Sys2Proof.Machine
end

