-- ==== Sys2Proof/Machine/Operands.lean ====
section
/-! DEFINITION. Operand access (spec 40_control_loop.md section 3): width, read, write and the check that comes before
any effect. -/

namespace Sys2Proof.Machine

/-- R8 `bits(W)`. -/
def bits : Width → Nat
  | .byte => 8
  | .word => 16

/-- R8 `mask(W)`. -/
def mask : Width → Word
  | .byte => 0x00FF#16
  | .word => 0xFFFF#16

/-- R108 `OpWidth`, of an operand that can be written. -/
def opWidth : Place → Width
  | .register a => a.w
  | .memory m   => m.w

/-- R106 `OpRead`, of a register or memory operand. -/
def readPlace (p : Place) (s : State) : Except Fault Word :=
  match p with
  | .register a => .ok (regRead a s.regs)
  | .memory m   => memRead s.dmem (effectiveAddress m s.regs) m.w

/-- R106 `OpRead`, of a source operand. -/
def opRead (v : Source) (s : State) : Except Fault Word :=
  match v with
  | .place p     => readPlace p s
  | .immediate x => .ok x

/-- R107 `OpWrite`. -/
def opWrite (p : Place) (v : Word) (s : State) : Except Fault State :=
  match p with
  | .register a => .ok (s.writeReg a v)
  | .memory m   => do
    let dmem ← memWrite s.dmem (effectiveAddress m s.regs) m.w v
    .ok { s with dmem := dmem }

/-- R109: a word-width memory operand at the top address. -/
def outOfRange (p : Place) (s : State) : Bool :=
  match p with
  | .register _ => false
  | .memory m   => m.w == .word && effectiveAddress m s.regs == topAddress

/-- R109 `CheckMem`, of a register or memory operand. -/
def checkPlace (p : Place) (s : State) : Except Fault Unit :=
  if outOfRange p s then .error .memOutOfRange else .ok ()

/-- R109 `CheckMem`, of a source operand. -/
def checkMem (v : Source) (s : State) : Except Fault Unit :=
  match v with
  | .place p     => checkPlace p s
  | .immediate _ => .ok ()

end Sys2Proof.Machine
end

