-- ==== Sys2Proof/Machine/Flags.lean ====
section
/-! DEFINITION. The ALU: the three operations, their result and the two flags (spec R130, R140, R141). No other flag
exists (R26). -/

namespace Sys2Proof.Machine

/-- R130: the operations of the ALU. -/
inductive AluOp where
  | add
  | sub
  | cmp
  deriving DecidableEq, Repr

/-- R130 `res`: computed on integers and reduced modulo `2^bits(W)`, non-negative. The reduction at word width is the
spec's decision D11, log entry 10. -/
def aluResult (op : AluOp) (w : Width) (a b : Word) : Word :=
  match op with
  | .add => BitVec.ofInt 16 (((a.toNat : Int) + b.toNat) % 2 ^ bits w)
  | .sub => BitVec.ofInt 16 (((a.toNat : Int) - b.toNat) % 2 ^ bits w)
  | .cmp => BitVec.ofInt 16 (((a.toNat : Int) - b.toNat) % 2 ^ bits w)

/-- R130: `ZF`, whether the result is 0. -/
def zeroOf (res : Word) : Bool := res == 0x0000#16

/-- R130: `SF`, the top bit of the result at the operation's width. -/
def signOf (w : Width) (res : Word) : Bool := res.getLsbD (bits w - 1)

/-- R130: both flags, written from the result. -/
def State.setFlags (s : State) (w : Width) (res : Word) : State :=
  { s with zf := zeroOf res, sf := signOf w res }

/-- R130: whether an operation writes its result back. -/
def AluOp.writesBack : AluOp → Bool
  | .add => true
  | .sub => true
  | .cmp => false

end Sys2Proof.Machine
end

