-- ==== Sys2Proof/Machine/Arith.lean ====
section
/-! DEFINITION. The nine ALU instructions: `add`, `sub`, `cmp` in three forms each (spec 42_arith.md). -/

namespace Sys2Proof.Machine

/-- R130: what an ALU instruction does to the state, or the fault it raises. All reads come before the write, and the
flags are written last (R110). -/
def aluEffect (op : AluOp) (dst : Place) (src : Source) (s : State) : Except Fault State := do
  checkPlace dst s
  checkMem src s
  let w := opWidth dst
  let a ← readPlace dst s
  let b ← opRead src s
  let res := aluResult op w (a &&& mask w) (b &&& mask w)
  let t ← if op.writesBack then opWrite dst res s else .ok s
  .ok (t.setFlags w res)

/-- R130 `add`, `sub`, `cmp`. -/
def alu (op : AluOp) (dst : Place) (src : Source) (s : State) : Host.Outcome State Fault Refusal :=
  s.finish (aluEffect op dst src s)

/-- R131 `add r/m, reg` and `add reg, r/m`. -/
def execAddRmReg (d : Bool) (w : Width) (reg : BitVec 3) (rm : RmField) (s : State) :
    Host.Outcome State Fault Refusal :=
  alu .add (rmRegDst d w reg rm) (rmRegSrc d w reg rm) s

/-- R134 `sub r/m, reg` and `sub reg, r/m`. -/
def execSubRmReg (d : Bool) (w : Width) (reg : BitVec 3) (rm : RmField) (s : State) :
    Host.Outcome State Fault Refusal :=
  alu .sub (rmRegDst d w reg rm) (rmRegSrc d w reg rm) s

/-- R137 `cmp r/m, reg` and `cmp reg, r/m`. -/
def execCmpRmReg (d : Bool) (w : Width) (reg : BitVec 3) (rm : RmField) (s : State) :
    Host.Outcome State Fault Refusal :=
  alu .cmp (rmRegDst d w reg rm) (rmRegSrc d w reg rm) s

/-- R132 `add r/m, imm`. The `S` bit has chosen the immediate's size at decode (R71). -/
def execAddImmRm (_s : Bool) (w : Width) (rm : RmField) (imm : ImmField) (s : State) :
    Host.Outcome State Fault Refusal :=
  alu .add (rm.place w) (.immediate (imm.value w)) s

/-- R135 `sub r/m, imm`. -/
def execSubImmRm (_s : Bool) (w : Width) (rm : RmField) (imm : ImmField) (s : State) :
    Host.Outcome State Fault Refusal :=
  alu .sub (rm.place w) (.immediate (imm.value w)) s

/-- R138 `cmp r/m, imm`. -/
def execCmpImmRm (_s : Bool) (w : Width) (rm : RmField) (imm : ImmField) (s : State) :
    Host.Outcome State Fault Refusal :=
  alu .cmp (rm.place w) (.immediate (imm.value w)) s

/-- R133 `add al/ax, imm`. -/
def execAddImmAcc (w : Width) (imm : ImmField) (s : State) : Host.Outcome State Fault Refusal :=
  alu .add (accumulator w) (.immediate (imm.value w)) s

/-- R136 `sub al/ax, imm`. -/
def execSubImmAcc (w : Width) (imm : ImmField) (s : State) : Host.Outcome State Fault Refusal :=
  alu .sub (accumulator w) (.immediate (imm.value w)) s

/-- R139 `cmp al/ax, imm`. -/
def execCmpImmAcc (w : Width) (imm : ImmField) (s : State) : Host.Outcome State Fault Refusal :=
  alu .cmp (accumulator w) (.immediate (imm.value w)) s

end Sys2Proof.Machine
end

