-- ==== Sys2Proof/Machine/Branch.lean ====
section
/-! DEFINITION. The twenty branch instructions (spec 43_branch.md): `jne`, the one that changes control flow, and the
nineteen that are decoded and do nothing. When one of them runs, `ip` is already past it (R104, R150). -/

namespace Sys2Proof.Machine

/-- R151: the mathematical target of a taken `jne`, from the advanced `ip` and the signed displacement. -/
def branchTarget (s : State) (disp : Byte) : Int := (s.ip.toNat : Int) + disp.toInt

/-- R151 cases 2 and 3: a jump to a target inside `0..65535`, or, outside it, the wrapped target and a halt. Case 3 is
the spec's decision D6, log entry 5. -/
def jumpTo (t : Int) (s : State) : State :=
  let moved := { s with ip := BitVec.ofInt 16 t }
  if 0 ≤ t ∧ t ≤ 65535 then moved else moved.raiseHalt .truncatedInstruction

/-- R151 `jne`. -/
def execJne (disp : Byte) (s : State) : Host.Outcome State Fault Refusal :=
  if s.zf then .next s else .next (jumpTo (branchTarget s disp) s)

/-- R152: the effect the nineteen other branches share, none. The spec's decision D8, log entry 6. -/
def noEffect (s : State) : Host.Outcome State Fault Refusal := .next s

/-- R153 `jo`: executes as R152. -/
def execJo (_disp : Byte) (s : State) : Host.Outcome State Fault Refusal := noEffect s

/-- R154 `jno`: executes as R152. -/
def execJno (_disp : Byte) (s : State) : Host.Outcome State Fault Refusal := noEffect s

/-- R155 `jb`: executes as R152. -/
def execJb (_disp : Byte) (s : State) : Host.Outcome State Fault Refusal := noEffect s

/-- R156 `jnb`: executes as R152. -/
def execJnb (_disp : Byte) (s : State) : Host.Outcome State Fault Refusal := noEffect s

/-- R157 `je`: executes as R152. It does not jump when `ZF = 1`. -/
def execJe (_disp : Byte) (s : State) : Host.Outcome State Fault Refusal := noEffect s

/-- R158 `jbe`: executes as R152. -/
def execJbe (_disp : Byte) (s : State) : Host.Outcome State Fault Refusal := noEffect s

/-- R159 `jnbe`: executes as R152. -/
def execJnbe (_disp : Byte) (s : State) : Host.Outcome State Fault Refusal := noEffect s

/-- R160 `js`: executes as R152. It does not jump when `SF = 1`. -/
def execJs (_disp : Byte) (s : State) : Host.Outcome State Fault Refusal := noEffect s

/-- R161 `jns`: executes as R152. -/
def execJns (_disp : Byte) (s : State) : Host.Outcome State Fault Refusal := noEffect s

/-- R162 `jp`: executes as R152. -/
def execJp (_disp : Byte) (s : State) : Host.Outcome State Fault Refusal := noEffect s

/-- R163 `jnp`: executes as R152. -/
def execJnp (_disp : Byte) (s : State) : Host.Outcome State Fault Refusal := noEffect s

/-- R164 `jl`: executes as R152. -/
def execJl (_disp : Byte) (s : State) : Host.Outcome State Fault Refusal := noEffect s

/-- R165 `jnl`: executes as R152. -/
def execJnl (_disp : Byte) (s : State) : Host.Outcome State Fault Refusal := noEffect s

/-- R166 `jle`: executes as R152. -/
def execJle (_disp : Byte) (s : State) : Host.Outcome State Fault Refusal := noEffect s

/-- R167 `jnle`: executes as R152. -/
def execJnle (_disp : Byte) (s : State) : Host.Outcome State Fault Refusal := noEffect s

/-- R168 `loopnz`: executes as R152. `cx` is not decremented. -/
def execLoopnz (_disp : Byte) (s : State) : Host.Outcome State Fault Refusal := noEffect s

/-- R169 `loopz`: executes as R152. `cx` is not decremented. -/
def execLoopz (_disp : Byte) (s : State) : Host.Outcome State Fault Refusal := noEffect s

/-- R170 `loop`: executes as R152. `cx` is not decremented and no jump is made. -/
def execLoop (_disp : Byte) (s : State) : Host.Outcome State Fault Refusal := noEffect s

/-- R171 `jcxz`: executes as R152. `cx` is not read. -/
def execJcxz (_disp : Byte) (s : State) : Host.Outcome State Fault Refusal := noEffect s

end Sys2Proof.Machine
end

