-- ==== Sys2Proof/Machine/Mov.lean ====
section
/-! DEFINITION. The three `mov` instructions (spec 41_mov.md). -/

namespace Sys2Proof.Machine

/-- R120: what a `mov` does to the state, or the fault it raises. -/
def movEffect (dst : Place) (src : Source) (s : State) : Except Fault State := do
  checkPlace dst s
  checkMem src s
  let v ← opRead src s
  opWrite dst (v &&& mask (opWidth dst)) s

/-- R120 `mov`. -/
def mov (dst : Place) (src : Source) (s : State) : Host.Outcome State Fault Refusal :=
  s.finish (movEffect dst src s)

/-- R121 `mov r/m, reg` and `mov reg, r/m`. -/
def execMovRmReg (d : Bool) (w : Width) (reg : BitVec 3) (rm : RmField) (s : State) :
    Host.Outcome State Fault Refusal :=
  mov (rmRegDst d w reg rm) (rmRegSrc d w reg rm) s

/-- R122 `mov r/m, imm`. The middle field of the second byte has no effect (the spec's decision D9, log entry 13). -/
def execMovImmRm (w : Width) (_ignored : BitVec 3) (rm : RmField) (imm : ImmField) (s : State) :
    Host.Outcome State Fault Refusal :=
  mov (rm.place w) (.immediate (imm.value w)) s

/-- R123 `mov reg, imm`. -/
def execMovImmReg (w : Width) (reg : BitVec 3) (imm : ImmField) (s : State) :
    Host.Outcome State Fault Refusal :=
  mov (.register ⟨reg, w⟩) (.immediate (imm.value w)) s

end Sys2Proof.Machine
end

