-- ==== Sys2Proof/Machine/Fetch.lean ====
section
/-! DEFINITION. What a step finds at `ip` (spec R101 to R103, R186): the order of the stopping conditions, the fetch of
the instruction's bytes and the decode. -/

namespace Sys2Proof.Machine

/-- What the beginning of a step finds. -/
inductive Fetched where
  /-- R113: the machine is in a terminal state, no step is enabled. -/
  | terminal
  /-- R202, U11: an image the spec refuses. -/
  | imageTooLong
  /-- R102, R103: the step halts for this reason. -/
  | stop (r : HaltReason)
  /-- R87: an instruction, with the exact bytes it was decoded from. -/
  | run (i : Instr) (bytes : List Byte)
  deriving DecidableEq, Repr

/-- R41 `IFetch`, all of it: the bytes of the image from `ip` on. Past the end there is none. -/
def State.bytesAtIp (s : State) : List Byte := s.imem.drop s.ip.toNat

/-- R101: the part of a step before the instruction's effect. -/
def fetch (s : State) : Fetched :=
  match s.status with
  | .halted  => .terminal
  | .faulted => .terminal
  | .running =>
    if s.imem.length > Config.imemMax then .imageTooLong
    else if s.ip.toNat = s.imem.length then .stop .endOfProgram
    else
      match decode s.bytesAtIp with
      | .unrecognized => .stop .unrecognizedOpcode
      | .truncated    => .stop .truncatedInstruction
      | .ok i rest    => .run i (s.bytesAtIp.take (s.bytesAtIp.length - rest.length))

/-- The image with `bytes` placed where the next instruction is fetched: what stands before `ip` is kept and, where the
image is shorter, filled with zeros; what stands after the bytes is kept; cut at the longest legal image. -/
def placeAt (image : List Byte) (at_ : Nat) (bytes : List Byte) : List Byte :=
  let front := image.take at_
  let filled := front ++ List.replicate (at_ - front.length) 0x00#8
  (filled ++ bytes ++ image.drop (at_ + bytes.length)).take Config.imemMax

end Sys2Proof.Machine
end

