-- ==== Sys2Proof/Machine/Step.lean ====
section
/-! DEFINITION. One step of the machine (spec R101), and the placing of an instruction where the next step fetches. -/

namespace Sys2Proof.Machine

/-- R101 `Step()`. -/
def step (s : State) : Host.Outcome State Fault Refusal :=
  match fetch s with
  | .terminal     => .next s
  | .imageTooLong => .refused .imageTooLong
  | .stop r       => .next (s.raiseHalt r)
  | .run i bytes  => exec i (s.advance bytes.length)

/-- The state in which the next step runs the instruction whose bits are `w`: the bytes stand at `ip` in the image and
the machine is running. It stands for the loader (R202), not for anything the core does. Log entry 1. -/
def State.withFetchWord (s : State) (nbits w : Nat) : State :=
  { s with
    imem       := placeAt s.imem s.ip.toNat (tableWordBytes nbits w)
    status     := .running
    haltReason := .none }

end Sys2Proof.Machine
end

