-- ==== Sys2Proof/Machine/Report.lean ====
section
/-! DEFINITION. The outputs of the core (spec R3): the Report interface (R111) and the Status interface (R28). Both are
functions of the state and of the step from it; neither changes any state, so no field of State holds them. -/

namespace Sys2Proof.Machine

/-- R101 `before` and `after`: the eight registers and the two flags. -/
structure Snapshot where
  regs : RegFile
  zf   : Bool
  sf   : Bool
  deriving DecidableEq, Repr

/-- R111: what the engine hands the formatter for one executed instruction; `last_write` is also visible. -/
structure Report where
  ins       : Instruction
  before    : Snapshot
  after     : Snapshot
  lastWrite : Option RegAccess
  deriving DecidableEq, Repr

/-- R101: the registers and flags of a state. -/
def State.snapshot (s : State) : Snapshot := ⟨s.regs, s.zf, s.sf⟩

/-- R101, R111: the Report of the step from a state, none for a step that executes no instruction or faults. The
content of the Report is the spec's decision D14, log entry 14. -/
def report (s : State) : Option Report :=
  match fetch s with
  | .terminal     => none
  | .imageTooLong => none
  | .stop _       => none
  | .run i bytes  =>
    match exec i (s.advance bytes.length) with
    | .next t =>
      match t.status with
      | .running => some ⟨i.record s.ip.toNat bytes, s.snapshot, t.snapshot, t.lastWrite⟩
      | .halted  => some ⟨i.record s.ip.toNat bytes, s.snapshot, t.snapshot, t.lastWrite⟩
      | .faulted => none
    | .fault _   => none
    | .refused _ => none

/-- R111, R112: the register dump at the end of the run, none while the machine runs. -/
def finalDump (s : State) : Option RegFile :=
  match s.status with
  | .running => none
  | .halted  => some s.regs
  | .faulted => some s.regs

/-- R3, R28: the Status interface. -/
def statusOutput (s : State) : RunStatus × HaltReason := (s.status, s.haltReason)

end Sys2Proof.Machine
end

