-- ==== Sys2Proof/Safety.lean ====
section
/-! DEFINITION. The terms claims are stated in: which runs are safe, the invariant of the machine, when an instruction
raises the memory fault, and the value and the store of an operand written as total functions. -/

namespace Sys2Proof

/-! ## Kinds of instructions -/

/-- R25: the mnemonics that write the flags. -/
def Mnemonic.isAlu (m : Mnemonic) : Bool := m == .add || m == .sub || m == .cmp

/-- The four mnemonics with two operands. -/
def Mnemonic.isData (m : Mnemonic) : Bool := m == .mov || m.isAlu

/-- R17: the mnemonics that write their destination. -/
def Mnemonic.isWriter (m : Mnemonic) : Bool := m == .mov || m == .add || m == .sub

/-- R150: the twenty branch mnemonics. -/
def Mnemonic.isBranch (m : Mnemonic) : Bool := !m.isData

end Sys2Proof

namespace Sys2Proof.Machine

/-! ## Runs -/

/-- R112: `k` steps from a state, as the host runs a machine. -/
def runSteps (k : Nat) (s : State) : Host.Outcome State Fault Refusal := Sys2Proof.core.run k s

/-- R112: the run is over. -/
def State.finished (s : State) : Prop := s.status ≠ .running

/-- R185: a faulted state is a safety violation. -/
def State.safe (s : State) : Prop := s.status ≠ .faulted

/-- R112, R182: the intended end of a run. -/
def State.succeeded (s : State) : Prop := s.status = .halted ∧ s.haltReason = .endOfProgram

/-- R28: `status` and `halt_reason` agree, as the two tables say. -/
def State.statusAgrees (s : State) : Prop :=
  match s.status with
  | .running => s.haltReason = .none
  | .halted  =>
    s.haltReason = .endOfProgram ∨ s.haltReason = .unrecognizedOpcode ∨ s.haltReason = .truncatedInstruction
  | .faulted => s.haltReason = .memOutOfRange

/-- R112: where `ip` stands in a final state, by its reason. A truncated instruction leaves it anywhere (R181). -/
def State.ipAgrees (s : State) : Prop :=
  match s.haltReason with
  | .none                 => True
  | .endOfProgram         => s.ip.toNat = s.imem.length
  | .unrecognizedOpcode   => s.ip.toNat < s.imem.length
  | .truncatedInstruction => True
  | .memOutOfRange        => 2 ≤ s.ip.toNat ∧ s.ip.toNat ≤ s.imem.length

/-- The invariant of the machine. -/
structure MachineInv (s : State) : Prop where
  /-- Data memory is in its canonical form, inside the address space (R42). -/
  memory : s.dmem.wf
  /-- R7: the image is a legal one. -/
  image  : s.imem.length ≤ Config.imemMax
  /-- R28. -/
  status : s.statusAgrees
  /-- R112. -/
  place  : s.ipAgrees
  /-- R141: the two flags are never both set. -/
  flags  : ¬ (s.zf = true ∧ s.sf = true)

/-! ## Operands -/

/-- R109: a word-width memory operand whose effective address is `0xFFFF`. -/
def operandAtTop (o : Operand) (r : RegFile) : Bool :=
  match o with
  | .memory m    => m.w == .word && effectiveAddress m r == 0xFFFF#16
  | .register _  => false
  | .immediate _ => false
  | .none        => false

/-- R109: the instruction raises `Fault(MemOutOfRange)`. -/
def raisesMemFault (i : Instr) (s : State) : Bool :=
  operandAtTop i.dst s.regs || operandAtTop i.src s.regs

/-- R106: the value of an operand, for one that raises no fault. `None` is never evaluated. -/
def operandValue (o : Operand) (s : State) : Word :=
  match o with
  | .register a  => regRead a s.regs
  | .memory m    =>
    match m.w with
    | .byte => zext16 (s.dmem.read (effectiveAddress m s.regs).toNat)
    | .word =>
      pair (s.dmem.read ((effectiveAddress m s.regs).toNat + 1)) (s.dmem.read (effectiveAddress m s.regs).toNat)
  | .immediate v => v
  | .none        => 0x0000#16

/-- R108: the width of an operand, none where it has no width of its own. -/
def operandWidth (o : Operand) : Option Width :=
  match o with
  | .register a  => some a.w
  | .memory m    => some m.w
  | .immediate _ => none
  | .none        => none

/-- R107: a value stored into an operand that raises no fault. The other variants are never written. -/
def storeOperand (o : Operand) (v : Word) (s : State) : State :=
  match o with
  | .register a  => { s with regs := regWrite a v s.regs, lastWrite := some a }
  | .memory m    =>
    match m.w with
    | .byte => { s with dmem := s.dmem.write (effectiveAddress m s.regs).toNat (lowByte v) }
    | .word =>
      { s with
        dmem := (s.dmem.write (effectiveAddress m s.regs).toNat (lowByte v)).write
          ((effectiveAddress m s.regs).toNat + 1) (highByte v) }
  | .immediate _ => s
  | .none        => s

/-- R49: the number of bytes of an access. -/
def accessBytes : Width → Nat
  | .byte => 1
  | .word => 2

/-! ## The arithmetic of R130 on wrapping words -/

/-- The wrapping sum at a width. -/
def wrapAdd (w : Width) (a b : Word) : Word :=
  match w with
  | .byte => zext16 (lowByte a + lowByte b)
  | .word => a + b

/-- The wrapping difference at a width. -/
def wrapSub (w : Width) (a b : Word) : Word :=
  match w with
  | .byte => zext16 (lowByte a - lowByte b)
  | .word => a - b

/-- R130: the top bit of a result at a width, as a comparison. -/
def topBitSet (w : Width) (res : Word) : Bool :=
  match w with
  | .byte => decide (128 ≤ res.toNat)
  | .word => decide (32768 ≤ res.toNat)

/-! ## Bytes the decoder recognises -/

/-- R83: the 64 recognised first bytes, as the spec lists them. -/
def recognisedFirstByte (b : Byte) : Bool :=
  decide (b.toNat ≤ 0x05) ||
  decide (0x28 ≤ b.toNat ∧ b.toNat ≤ 0x2D) ||
  decide (0x38 ≤ b.toNat ∧ b.toNat ≤ 0x3D) ||
  decide (0x70 ≤ b.toNat ∧ b.toNat ≤ 0x7F) ||
  decide (0x80 ≤ b.toNat ∧ b.toNat ≤ 0x83) ||
  decide (0x88 ≤ b.toNat ∧ b.toNat ≤ 0x8B) ||
  decide (0xB0 ≤ b.toNat ∧ b.toNat ≤ 0xBF) ||
  decide (0xC6 ≤ b.toNat ∧ b.toNat ≤ 0xC7) ||
  decide (0xE0 ≤ b.toNat ∧ b.toNat ≤ 0xE3)

/-- R72: the first bytes `80`..`83` with a middle field of the second byte that selects no operation. -/
def illegalSubOperation (b0 b1 : Byte) : Bool :=
  decide (0x80 ≤ b0.toNat ∧ b0.toNat ≤ 0x83) &&
  decide (b1.toNat / 8 % 8 ≠ 0 ∧ b1.toNat / 8 % 8 ≠ 5 ∧ b1.toNat / 8 % 8 ≠ 7)

/-! ## The bytes of an encoding, as numbers -/

/-- R8, R67: the value of the width bit. -/
def widthBit : Width → Nat
  | .byte => 0
  | .word => 1

/-- R79: the two bytes of a word, the low byte first. -/
def lowHigh (v : Word) : List Byte := [BitVec.ofNat 8 (v.toNat % 256), BitVec.ofNat 8 (v.toNat / 256)]

/-- R68, R76: the second byte with middle field `k`, `mod * 64 + k * 8 + rm`, and the displacement bytes after it. -/
def modRmBytes (k : BitVec 3) : RmField → List Byte
  | .register rm => [BitVec.ofNat 8 (3 * 64 + k.toNat * 8 + rm.toNat)]
  | .noDisp rm   => [BitVec.ofNat 8 (0 * 64 + k.toNat * 8 + rm.toNat)]
  | .direct a    => BitVec.ofNat 8 (0 * 64 + k.toNat * 8 + 6) :: lowHigh a
  | .disp8 rm d  => [BitVec.ofNat 8 (1 * 64 + k.toNat * 8 + rm.toNat), d]
  | .disp16 rm d => BitVec.ofNat 8 (2 * 64 + k.toNat * 8 + rm.toNat) :: lowHigh d

/-- R70, R79: the bytes of an immediate. -/
def immediateBytes : ImmField → List Byte
  | .imm8 b  => [b]
  | .imm16 v => lowHigh v

/-! ## Outcomes -/

/-- A function applied to the next state of an outcome. -/
def mapNext (f : State → State) (o : Host.Outcome State Fault Refusal) : Host.Outcome State Fault Refusal :=
  match o with
  | .next s    => .next (f s)
  | .fault r   => .fault r
  | .refused r => .refused r

end Sys2Proof.Machine
end

