-- ==== Sys2Proof/Certificates/Slice0/Obligations.lean ====
section
/-! DEFINITION. The statements about this model. Each says in its docstring which rule of the spec it formalises, or,
where it rests on a decision of the spec (92_eei_decisions.md), which decision and which log entry of the model. -/

open Sys2Proof Sys2Proof.Machine

/-! ## The decoder and the encoder -/

/-- Twelve instructions of the spec, at least one of each shape, decode from the bytes the spec writes for them
(95_test_vectors.md section 4: DV1, DV3, DV6, DV8, DV17, DV21, DV22, DV26, DV41, DV46, DV51, DV53). That DV21, with
001 in the middle field of `C7`, is a `mov` is the spec's decision D9; log entry 13. -/
def Obligations.SpecBytesDecodeAsTheSpecWritesThem : Prop :=
  decode [0x89#8, 0xD8#8] = .ok (.movRmReg false .word 3#3 (.register 0#3)) [] ∧
  decode [0x8B#8, 0x5B#8, 0x0A#8] = .ok (.movRmReg true .word 3#3 (.disp8 3#3 0x0A#8)) [] ∧
  decode [0x89#8, 0x16#8, 0xE8#8, 0x03#8] = .ok (.movRmReg false .word 2#3 (.direct 0x03E8#16)) [] ∧
  decode [0x8A#8, 0x40#8, 0xFF#8] = .ok (.movRmReg true .byte 0#3 (.disp8 0#3 0xFF#8)) [] ∧
  decode [0xC7#8, 0x06#8, 0xE8#8, 0x03#8, 0x34#8, 0x12#8] =
    .ok (.movImmRm .word 0#3 (.direct 0x03E8#16) (.imm16 0x1234#16)) [] ∧
  decode [0xC7#8, 0xCB#8, 0x34#8, 0x12#8] = .ok (.movImmRm .word 1#3 (.register 3#3) (.imm16 0x1234#16)) [] ∧
  decode [0xB1#8, 0x0C#8] = .ok (.movImmReg .byte 1#3 (.imm8 0x0C#8)) [] ∧
  decode [0x01#8, 0xC8#8] = .ok (.addRmReg false .word 1#3 (.register 0#3)) [] ∧
  decode [0x83#8, 0xE9#8, 0x01#8] = .ok (.subImmRm true .word (.register 1#3) (.imm8 0x01#8)) [] ∧
  decode [0x05#8, 0x02#8, 0x00#8] = .ok (.addImmAcc .word (.imm16 0x0002#16)) [] ∧
  decode [0x75#8, 0xFE#8] = .ok (.jne 0xFE#8) [] ∧
  decode [0xE2#8, 0xF0#8] = .ok (.loop 0xF0#8) []

/-- For every well-formed instruction, whatever bytes follow its encoding, the decoder gives the instruction back and
leaves exactly those bytes (30_encoding.md). -/
def Obligations.EncodedInstructionDecodesToItself : Prop :=
  ∀ (i : Instr) (rest : List Byte), i.wellFormed = true → decode (encode i ++ rest) = .ok i rest

/-- The other direction: what the decoder decodes is well formed, and the bytes it consumed are that instruction's
encoding (95_test_vectors.md X1, X2; 90_conflicts.md C4: the instruction here is the syntax with every bit of the
encoding, not the operand record, which does not determine the bytes). -/
def Obligations.DecodedBytesAreTheEncoding : Prop :=
  ∀ (bs rest : List Byte) (i : Instr), decode bs = .ok i rest → i.wellFormed = true ∧ bs = encode i ++ rest

/-- The encoding of every instruction, as numbers: the opcode of its row, `D`, `S` and `W` at their places in the first
byte, `mod`, the middle field and `rm` in the second, then the displacement, then the immediate, low byte first
(30_encoding.md sections 1, 3 and 5). The bytes of seventeen branches are PRESUMED by the spec (G1; log entry 7); that
`mod` is on top of the second byte is derived there and general knowledge (G4; log entry 17); that any middle field of
`C6` and `C7` is a `mov` is the spec's decision D9 (log entry 13). -/
def Obligations.EncodingsAreTheSpecsBitPatterns : Prop :=
  ∀ (d s : Bool) (w : Width) (reg ign : BitVec 3) (rm : RmField) (imm : ImmField) (x : Byte),
    let rmReg (opcode : Nat) : List Byte := BitVec.ofNat 8 (opcode + 2 * d.toNat + widthBit w) :: modRmBytes reg rm
    let immRm (op : BitVec 3) : List Byte :=
      BitVec.ofNat 8 (0x80 + 2 * s.toNat + widthBit w) :: modRmBytes op rm ++ immediateBytes imm
    encode (.movRmReg d w reg rm) = rmReg 0x88 ∧ encode (.addRmReg d w reg rm) = rmReg 0x00 ∧
    encode (.subRmReg d w reg rm) = rmReg 0x28 ∧ encode (.cmpRmReg d w reg rm) = rmReg 0x38 ∧
    encode (.movImmRm w ign rm imm) = BitVec.ofNat 8 (0xC6 + widthBit w) :: modRmBytes ign rm ++ immediateBytes imm ∧
    encode (.addImmRm s w rm imm) = immRm 0#3 ∧ encode (.subImmRm s w rm imm) = immRm 5#3 ∧
    encode (.cmpImmRm s w rm imm) = immRm 7#3 ∧
    encode (.movImmReg w reg imm) = BitVec.ofNat 8 (0xB0 + 8 * widthBit w + reg.toNat) :: immediateBytes imm ∧
    encode (.addImmAcc w imm) = BitVec.ofNat 8 (0x04 + widthBit w) :: immediateBytes imm ∧
    encode (.subImmAcc w imm) = BitVec.ofNat 8 (0x2C + widthBit w) :: immediateBytes imm ∧
    encode (.cmpImmAcc w imm) = BitVec.ofNat 8 (0x3C + widthBit w) :: immediateBytes imm ∧
    encode (.jo x) = [0x70#8, x] ∧ encode (.jno x) = [0x71#8, x] ∧ encode (.jb x) = [0x72#8, x] ∧
    encode (.jnb x) = [0x73#8, x] ∧ encode (.je x) = [0x74#8, x] ∧ encode (.jne x) = [0x75#8, x] ∧
    encode (.jbe x) = [0x76#8, x] ∧ encode (.jnbe x) = [0x77#8, x] ∧ encode (.js x) = [0x78#8, x] ∧
    encode (.jns x) = [0x79#8, x] ∧ encode (.jp x) = [0x7A#8, x] ∧ encode (.jnp x) = [0x7B#8, x] ∧
    encode (.jl x) = [0x7C#8, x] ∧ encode (.jnl x) = [0x7D#8, x] ∧ encode (.jle x) = [0x7E#8, x] ∧
    encode (.jnle x) = [0x7F#8, x] ∧ encode (.loopnz x) = [0xE0#8, x] ∧ encode (.loopz x) = [0xE1#8, x] ∧
    encode (.loop x) = [0xE2#8, x] ∧ encode (.jcxz x) = [0xE3#8, x]

/-- Whatever the first two bytes are, at most one row of the table matches, so the declared order of the table (the
spec's decision D13) changes no result (30_encoding.md section 3). -/
def Obligations.AtMostOneTableRowMatches : Prop :=
  ∀ b0 b1 : Byte, (table.filter fun e => e.holds b0 b1).length ≤ 1

/-- The decoder answers Unrecognized exactly when the first byte is none of the 64 the spec lists, or is one of
`80`..`83` with a second byte whose middle field selects no operation. Rests on the spec's decisions D10 and D12 and on
the opcode bytes of general knowledge G1; log entries 7, 9 and 11. -/
def Obligations.UnrecognizedExactlyOutsideTheListedBytes : Prop :=
  ∀ bs : List Byte, decode bs = .unrecognized ↔
    ∃ b0 t, bs = b0 :: t ∧
      (recognisedFirstByte b0 = false ∨ ∃ b1 u, t = b1 :: u ∧ illegalSubOperation b0 b1 = true)

/-- The encoding of an instruction cut at any place decodes as Truncated (30_encoding.md section 7). The order of the
two failure tests is the spec's decision D12; log entry 11. -/
def Obligations.CutEncodingIsTruncated : Prop :=
  ∀ (i : Instr) (n : Nat), i.wellFormed = true → n < (encode i).length → decode ((encode i).take n) = .truncated

/-- A decoded instruction consumed exactly the length the spec's table gives it, between 2 and 6 bytes
(30_encoding.md sections 1 and 6). -/
def Obligations.DecodedLengthIsTheTabledLength : Prop :=
  ∀ (bs rest : List Byte) (i : Instr), decode bs = .ok i rest →
    bs.length = i.length + rest.length ∧ 2 ≤ i.length ∧ i.length ≤ 6

/-- The row the matcher finds and the instruction the decoder builds have one mnemonic (30_encoding.md sections 3
and 6). -/
def Obligations.DecodedMnemonicIsTheRowsMnemonic : Prop :=
  ∀ (b0 b1 : Byte) (t rest : List Byte) (i : Instr), decode (b0 :: b1 :: t) = .ok i rest →
    ∃ e, findRow b0 b1 = some e ∧ e.mnemonic = i.mnemonic

/-- The variants of the operands (30_encoding.md section 6, the table of variants per shape): no instruction has two
memory operands; an immediate destination occurs exactly on branches, and a branch has no source; the destination and
source of the others have one width, where the source has one. -/
def Obligations.OperandVariantsOfTheRecord : Prop :=
  ∀ i : Instr,
    (∀ m n, ¬ (i.dst = .memory m ∧ i.src = .memory n)) ∧
    ((∃ v, i.dst = .immediate v) ↔ i.mnemonic.isBranch = true) ∧
    (i.src = .none ↔ i.mnemonic.isBranch = true) ∧
    (i.mnemonic.isBranch = false → ∃ w, operandWidth i.dst = some w ∧
      (operandWidth i.src = some w ∨ operandWidth i.src = none))

/-- The operands of the record, shape by shape (30_encoding.md sections 4 and 5, R69 to R76 and R81): with `D = 1` the
register is the destination and the r/m operand the source, with `D = 0` the other way; the five forms of the r/m
operand; an immediate goes to the r/m operand, to the accumulator (index 0) or to the register of the first byte; a
branch has its displacement byte, zero-extended, as destination and no source. A one-byte immediate is stored
zero-extended in a byte operation (the spec's decision D15; log entry 12) and sign-extended under `83`; two bytes are
stored as they stand. -/
def Obligations.OperandsOfEachShape : Prop :=
  ∀ (s : Bool) (w : Width) (reg ign k : BitVec 3) (rm : RmField) (x : Byte) (v : Word),
    let zext : Word := BitVec.ofNat 16 x.toNat
    let sext : Word := BitVec.ofInt 16 x.toInt
    let rmOperand (w : Width) (rm : RmField) : Operand := (rm.place w).operand
    (∀ mk ∈ ([.movRmReg, .addRmReg, .subRmReg, .cmpRmReg] : List (Bool → Width → BitVec 3 → RmField → Instr)),
      (mk true w reg rm).dst = .register ⟨reg, w⟩ ∧ (mk true w reg rm).src = rmOperand w rm ∧
      (mk false w reg rm).dst = rmOperand w rm ∧ (mk false w reg rm).src = .register ⟨reg, w⟩) ∧
    rmOperand w (.register k) = .register ⟨k, w⟩ ∧
    rmOperand w (.noDisp k) = .memory ⟨(basePair k).1, (basePair k).2, 0x0000#16, w⟩ ∧
    rmOperand w (.direct v) = .memory ⟨none, none, v, w⟩ ∧
    rmOperand w (.disp8 k x) = .memory ⟨(basePair k).1, (basePair k).2, sext, w⟩ ∧
    rmOperand w (.disp16 k v) = .memory ⟨(basePair k).1, (basePair k).2, v, w⟩ ∧
    (∀ mk ∈ ([fun w rm imm => .movImmRm w ign rm imm, .addImmRm s, .subImmRm s, .cmpImmRm s] :
        List (Width → RmField → ImmField → Instr)),
      (∀ imm, (mk w rm imm).dst = rmOperand w rm) ∧
      (mk .byte rm (.imm8 x)).src = .immediate zext ∧ (mk .word rm (.imm16 v)).src = .immediate v) ∧
    (∀ mk ∈ ([.addImmRm true, .subImmRm true, .cmpImmRm true] : List (Width → RmField → ImmField → Instr)),
      (mk .word rm (.imm8 x)).src = .immediate sext) ∧
    (∀ mk ∈ ([.addImmAcc, .subImmAcc, .cmpImmAcc] : List (Width → ImmField → Instr)),
      (∀ imm, (mk w imm).dst = .register ⟨0#3, w⟩) ∧
      (mk .byte (.imm8 x)).src = .immediate zext ∧ (mk .word (.imm16 v)).src = .immediate v) ∧
    (∀ imm, (Instr.movImmReg w reg imm).dst = .register ⟨reg, w⟩) ∧
    (Instr.movImmReg .byte reg (.imm8 x)).src = .immediate zext ∧
    (Instr.movImmReg .word reg (.imm16 v)).src = .immediate v ∧
    (∀ mk ∈ ([.jo, .jno, .jb, .jnb, .je, .jne, .jbe, .jnbe, .js, .jns, .jp, .jnp, .jl, .jnl, .jle, .jnle,
        .loopnz, .loopz, .loop, .jcxz] : List (Byte → Instr)),
      (mk x).dst = .immediate zext ∧ (mk x).src = .none)

/-- The base registers of the eight r/m codes (30_encoding.md section 5, R77), by name and as the sum they contribute to
the effective address. The codes 000 and 110 are the source's; the other six are PRESUMED by the spec (G2; log
entry 8). -/
def Obligations.BaseRegistersOfTheRmCodes : Prop :=
  ∀ (r : RegFile) (w : Width),
    let address (rm : BitVec 3) : Word := effectiveAddress ⟨(basePair rm).1, (basePair rm).2, 0x0000#16, w⟩ r
    (basePair 0b000#3 = (some .bx, some .si) ∧ address 0b000#3 = r.bx + r.si) ∧
    (basePair 0b001#3 = (some .bx, some .di) ∧ address 0b001#3 = r.bx + r.di) ∧
    (basePair 0b010#3 = (some .bp, some .si) ∧ address 0b010#3 = r.bp + r.si) ∧
    (basePair 0b011#3 = (some .bp, some .di) ∧ address 0b011#3 = r.bp + r.di) ∧
    (basePair 0b100#3 = (some .si, none) ∧ address 0b100#3 = r.si) ∧
    (basePair 0b101#3 = (some .di, none) ∧ address 0b101#3 = r.di) ∧
    (basePair 0b110#3 = (some .bp, none) ∧ address 0b110#3 = r.bp) ∧
    (basePair 0b111#3 = (some .bx, none) ∧ address 0b111#3 = r.bx)

/-- The encodings that say the same thing run alike. `82` as `80`; `C6`/`C7` whatever the ignored bits; `C6`/`C7` on a
register as the short form; either direction bit between two registers (30_encoding.md section 7, R86). `80` on `al`
and `81` on `ax` as the accumulator forms, and `83` as `81` with the sign-extended immediate, on every r/m operand
(section 4, R71 and R73; 90_conflicts.md C4). No displacement as a zero displacement of one byte, and a displacement of
one byte as the sign-extended one of two, in every instruction with an r/m operand (section 5, R78; C4). Rests on the
spec's decisions D9 and D15; log entries 12 and 13. -/
def Obligations.RedundantEncodingsRunAlike : Prop :=
  ∀ (s : State) (d sx : Bool) (w : Width) (a b c : BitVec 3) (ign ign' : BitVec 3) (rm : RmField) (imm : ImmField)
    (x : Byte) (v : Word),
    exec (.addImmRm true .byte rm (.imm8 x)) s = exec (.addImmRm false .byte rm (.imm8 x)) s ∧
    exec (.subImmRm true .byte rm (.imm8 x)) s = exec (.subImmRm false .byte rm (.imm8 x)) s ∧
    exec (.cmpImmRm true .byte rm (.imm8 x)) s = exec (.cmpImmRm false .byte rm (.imm8 x)) s ∧
    exec (.movImmRm w ign rm imm) s = exec (.movImmRm w ign' rm imm) s ∧
    exec (.movImmRm w ign (.register a) imm) s = exec (.movImmReg w a imm) s ∧
    exec (.movRmReg false w a (.register b)) s = exec (.movRmReg true w b (.register a)) s ∧
    exec (.addRmReg false w a (.register b)) s = exec (.addRmReg true w b (.register a)) s ∧
    exec (.subRmReg false w a (.register b)) s = exec (.subRmReg true w b (.register a)) s ∧
    exec (.cmpRmReg false w a (.register b)) s = exec (.cmpRmReg true w b (.register a)) s ∧
    exec (.addImmRm false .byte (.register 0#3) (.imm8 x)) s = exec (.addImmAcc .byte (.imm8 x)) s ∧
    exec (.subImmRm false .byte (.register 0#3) (.imm8 x)) s = exec (.subImmAcc .byte (.imm8 x)) s ∧
    exec (.cmpImmRm false .byte (.register 0#3) (.imm8 x)) s = exec (.cmpImmAcc .byte (.imm8 x)) s ∧
    exec (.addImmRm false .word (.register 0#3) (.imm16 v)) s = exec (.addImmAcc .word (.imm16 v)) s ∧
    exec (.subImmRm false .word (.register 0#3) (.imm16 v)) s = exec (.subImmAcc .word (.imm16 v)) s ∧
    exec (.cmpImmRm false .word (.register 0#3) (.imm16 v)) s = exec (.cmpImmAcc .word (.imm16 v)) s ∧
    exec (.addImmRm true .word rm (.imm8 x)) s = exec (.addImmRm false .word rm (.imm16 (sext16 x))) s ∧
    exec (.subImmRm true .word rm (.imm8 x)) s = exec (.subImmRm false .word rm (.imm16 (sext16 x))) s ∧
    exec (.cmpImmRm true .word rm (.imm8 x)) s = exec (.cmpImmRm false .word rm (.imm16 (sext16 x))) s ∧
    exec (.addImmRm true .word (.register 0#3) (.imm8 x)) s = exec (.addImmAcc .word (.imm16 (sext16 x))) s ∧
    exec (.subImmRm true .word (.register 0#3) (.imm8 x)) s = exec (.subImmAcc .word (.imm16 (sext16 x))) s ∧
    exec (.cmpImmRm true .word (.register 0#3) (.imm8 x)) s = exec (.cmpImmAcc .word (.imm16 (sext16 x))) s ∧
    ∀ mk ∈ ([.movRmReg d w a, .addRmReg d w a, .subRmReg d w a, .cmpRmReg d w a, fun f => .movImmRm w ign f imm,
        fun f => .addImmRm sx w f imm, fun f => .subImmRm sx w f imm, fun f => .cmpImmRm sx w f imm] :
        List (RmField → Instr)),
      exec (mk (.noDisp c)) s = exec (mk (.disp8 c 0x00#8)) s ∧
      exec (mk (.disp8 c x)) s = exec (mk (.disp16 c (sext16 x))) s

/-! ## Registers -/

/-- R11 and R13: a word access reads and writes the whole slot of its index, and a write leaves the other seven slots
alone. Which slot that is for each index, WordRegisterIndicesNameTheSlots says. -/
def Obligations.WordRegisterAccessIsTheWholeSlot : Prop :=
  ∀ (index : BitVec 3) (v : Word) (r : RegFile),
    regRead ⟨index, .word⟩ r = r.get (slotOf index) ∧
    (regWrite ⟨index, .word⟩ v r).get (slotOf index) = v ∧
    ∀ j, j ≠ slotOf index → (regWrite ⟨index, .word⟩ v r).get j = r.get j

/-- The slot of each of the eight word indices (10_state.md section 2, R10): 0 to 7 read and write `ax`, `cx`, `dx`,
`bx`, `sp`, `bp`, `si`, `di`, a write changing nothing else; and a slot's name reads the register of that name. That the
indices 1 to 7 follow the order of the source's list is derived in the spec, and general knowledge (G7; log
entry 16). -/
def Obligations.WordRegisterIndicesNameTheSlots : Prop :=
  ∀ (r : RegFile) (v : Word),
    (regRead ⟨0#3, .word⟩ r = r.ax ∧ regWrite ⟨0#3, .word⟩ v r = { r with ax := v } ∧ r.get .ax = r.ax) ∧
    (regRead ⟨1#3, .word⟩ r = r.cx ∧ regWrite ⟨1#3, .word⟩ v r = { r with cx := v } ∧ r.get .cx = r.cx) ∧
    (regRead ⟨2#3, .word⟩ r = r.dx ∧ regWrite ⟨2#3, .word⟩ v r = { r with dx := v } ∧ r.get .dx = r.dx) ∧
    (regRead ⟨3#3, .word⟩ r = r.bx ∧ regWrite ⟨3#3, .word⟩ v r = { r with bx := v } ∧ r.get .bx = r.bx) ∧
    (regRead ⟨4#3, .word⟩ r = r.sp ∧ regWrite ⟨4#3, .word⟩ v r = { r with sp := v } ∧ r.get .sp = r.sp) ∧
    (regRead ⟨5#3, .word⟩ r = r.bp ∧ regWrite ⟨5#3, .word⟩ v r = { r with bp := v } ∧ r.get .bp = r.bp) ∧
    (regRead ⟨6#3, .word⟩ r = r.si ∧ regWrite ⟨6#3, .word⟩ v r = { r with si := v } ∧ r.get .si = r.si) ∧
    (regRead ⟨7#3, .word⟩ r = r.di ∧ regWrite ⟨7#3, .word⟩ v r = { r with di := v } ∧ r.get .di = r.di)

/-- The eight byte registers `al cl dl bl ah ch dh bh`, indices 0 to 7, as numbers: indices 0 to 3 read the slot's value
modulo 256, indices 4 to 7 its value divided by 256. That bit 2 clear is the low half is derived in the spec
(10_state.md section 2), and that the indices 4 to 7 have a byte meaning is its choice in conflict C1; log entry 16. -/
def Obligations.ByteRegisterReadsOneHalf : Prop :=
  ∀ r : RegFile,
    (regRead ⟨0#3, .byte⟩ r).toNat = r.ax.toNat % 256 ∧ (regRead ⟨1#3, .byte⟩ r).toNat = r.cx.toNat % 256 ∧
    (regRead ⟨2#3, .byte⟩ r).toNat = r.dx.toNat % 256 ∧ (regRead ⟨3#3, .byte⟩ r).toNat = r.bx.toNat % 256 ∧
    (regRead ⟨4#3, .byte⟩ r).toNat = r.ax.toNat / 256 ∧ (regRead ⟨5#3, .byte⟩ r).toNat = r.cx.toNat / 256 ∧
    (regRead ⟨6#3, .byte⟩ r).toNat = r.dx.toNat / 256 ∧ (regRead ⟨7#3, .byte⟩ r).toNat = r.bx.toNat / 256

/-- What any register access reads after any register write: the value written, cut to its width, through the same
access; the old value through an access to another slot or to the other half; the half of a word written; the word with
one half replaced (10_state.md section 2; 95_test_vectors.md X5). A byte write uses bits 7..0 by the spec's decision
D15; log entry 12. -/
def Obligations.RegisterReadAfterWrite : Prop :=
  ∀ (a b : RegAccess) (v : Word) (r : RegFile),
    (a = b → regRead b (regWrite a v r) = v &&& mask a.w) ∧
    (accessSlot a ≠ accessSlot b → regRead b (regWrite a v r) = regRead b r) ∧
    (a.w = .byte → b.w = .byte → a.index ≠ b.index → regRead b (regWrite a v r) = regRead b r) ∧
    (a.w = .word → b.w = .byte → accessSlot a = accessSlot b →
      (regRead b (regWrite a v r)).toNat = if 4 ≤ b.index.toNat then v.toNat / 256 else v.toNat % 256) ∧
    (a.w = .byte → b.w = .word → accessSlot a = accessSlot b →
      (regRead b (regWrite a v r)).toNat =
        if 4 ≤ a.index.toNat then v.toNat % 256 * 256 + (regRead b r).toNat % 256
        else (regRead b r).toNat / 256 * 256 + v.toNat % 256)

/-! ## Data memory and addressing -/

/-- R48: the effective address is the sum of the base registers that are present and the displacement, modulo 65536;
the two bases commute; a form without displacement adds nothing, the direct form is its address, an 8-bit displacement
adds its signed value, a 16-bit displacement its value (which registers the bases of an r/m code are,
BaseRegistersOfTheRmCodes says); and addressing changes no register: the one an instruction
changes is its register destination. -/
def Obligations.EffectiveAddressIsTheSumModulo65536 : Prop :=
  ∀ (r : RegFile) (b1 b2 : Option Slot) (disp : Word) (w : Width) (rm : BitVec 3) (d : Byte),
    let base (b : Option Slot) : Nat := b.elim 0 fun j => (r.get j).toNat
    let sum : Nat := base (basePair rm).1 + base (basePair rm).2
    (effectiveAddress ⟨b1, b2, disp, w⟩ r).toNat = (base b1 + base b2 + disp.toNat) % 65536 ∧
    effectiveAddress ⟨b1, b2, disp, w⟩ r = effectiveAddress ⟨b2, b1, disp, w⟩ r ∧
    (∀ m, (RmField.noDisp rm).place w = .memory m → (effectiveAddress m r).toNat = sum % 65536 ∧ m.w = w) ∧
    (∀ m, (RmField.direct disp).place w = .memory m → effectiveAddress m r = disp ∧ m.w = w) ∧
    (∀ m, (RmField.disp8 rm d).place w = .memory m →
      ((effectiveAddress m r).toNat : Int) = ((sum : Int) + d.toInt) % 65536 ∧ m.w = w) ∧
    (∀ m, (RmField.disp16 rm disp).place w = .memory m →
      (effectiveAddress m r).toNat = (sum + disp.toNat) % 65536 ∧ m.w = w) ∧
    (∀ (i : Instr) (s t : State) (j : Slot), exec i s = .next t → t.regs.get j ≠ s.regs.get j →
      ∃ a, i.dst = .register a ∧ accessSlot a = j)

/-- Little-endian throughout (20_memory.md section 2, R43). A word stored at an address stands low byte first; two bytes
are read as the word with the first of them low; the fetch of a two-byte field takes the low byte first. That the word
access completes at every address but `0xFFFF`, odd or even, is the spec's decision D17 (R47; log entry 18). -/
def Obligations.WordsAreLittleEndian : Prop :=
  (∀ (m : Memory) (addr : Word) (v : Word), addr ≠ 0xFFFF#16 →
    ∃ q, memWrite m addr .word v = .ok q ∧
      (q.read addr.toNat).toNat = v.toNat % 256 ∧ (q.read (addr.toNat + 1)).toNat = v.toNat / 256 ∧
      memRead q addr .word = .ok v) ∧
  (∀ (m : Memory) (addr : Word) (lo hi : Word) (q q' : Memory), addr ≠ 0xFFFF#16 →
    memWrite m addr .byte lo = .ok q → memWrite q (addr + 1#16) .byte hi = .ok q' →
    ∃ x, memRead q' addr .word = .ok x ∧ x.toNat = hi.toNat % 256 * 256 + lo.toNat % 256) ∧
  (∀ (lo hi : Byte) (bs : List Byte),
    ∃ x, takeWord (lo :: hi :: bs) = some (x, bs) ∧ x.toNat = hi.toNat * 256 + lo.toNat)

/-- A store changes the bytes of its width at its address and no other byte, and keeps the canonical form of memory; a
word access at `0xFFFF`, read or write, raises `MemOutOfRange`, and no other access does. That the word access at the
top faults and does not wrap is the spec's decision D7; log entry 4. -/
def Obligations.StoreChangesOnlyItsBytes : Prop :=
  (∀ (m q : Memory) (addr : Word) (w : Width) (v : Word), memWrite m addr w v = .ok q →
    (∀ x, ¬ (addr.toNat ≤ x ∧ x < addr.toNat + accessBytes w) → q.read x = m.read x) ∧ (m.wf → q.wf)) ∧
  (∀ (m : Memory) (addr : Word) (w : Width),
    (memRead m addr w = .error .memOutOfRange ↔ w = .word ∧ addr = 0xFFFF#16) ∧
    (∀ v, memWrite m addr w v = .error .memOutOfRange ↔ w = .word ∧ addr = 0xFFFF#16))

/-- A store and then a load through the same r/m operand gives the register stored, at either width, for every form of
the operand (20_memory.md section 6). Both instructions complete when the first raises no memory fault. -/
def Obligations.LoadReturnsTheStoredRegister : Prop :=
  ∀ (w : Width) (a b : BitVec 3) (rm : RmField) (s : State),
    raisesMemFault (.movRmReg false w a rm) s = false →
    ∃ t u, exec (.movRmReg false w a rm) s = .next t ∧ exec (.movRmReg true w b rm) t = .next u ∧
      regRead ⟨b, w⟩ u.regs = regRead ⟨a, w⟩ s.regs

/-! ## mov -/

/-- `mov` (movRmReg, movImmRm, movImmReg; 41_mov.md section 1), when its memory operand raises no fault, completes: it
stores the value of the source into the destination and changes nothing else; both flags stay. -/
def Obligations.MovStoresTheSourceValue : Prop :=
  ∀ (i : Instr) (s : State), i.mnemonic = .mov → raisesMemFault i s = false →
    exec i s = .next (storeOperand i.dst (operandValue i.src s) s) ∧
    (storeOperand i.dst (operandValue i.src s) s).zf = s.zf ∧
    (storeOperand i.dst (operandValue i.src s) s).sf = s.sf

/-- After a `mov` the destination, read again, gives the source's value cut to the operand's width, for register and
memory destinations (41_mov.md section 1). -/
def Obligations.MovDestinationReadsAsTheSource : Prop :=
  ∀ (i : Instr) (s : State) (w : Width), i.mnemonic = .mov → operandWidth i.dst = some w →
    raisesMemFault i s = false →
    ∃ t, exec i s = .next t ∧ operandValue i.dst t = operandValue i.src s &&& mask w

/-! ## add, sub, cmp -/

/-- `add` (addRmReg, addImmRm, addImmAcc), when its memory operand raises no fault, completes: the destination takes the
sum wrapped at the width, `ZF` says whether it is 0 and `SF` is its top bit, and nothing else changes (42_arith.md
section 1). The wrap at word width is the spec's decision D11; log entry 10. -/
def Obligations.AddStoresTheWrappedSum : Prop :=
  ∀ (i : Instr) (s : State) (w : Width), i.mnemonic = .add → operandWidth i.dst = some w →
    raisesMemFault i s = false →
    exec i s = .next
      { storeOperand i.dst (wrapAdd w (operandValue i.dst s) (operandValue i.src s)) s with
        zf := decide ((wrapAdd w (operandValue i.dst s) (operandValue i.src s)).toNat = 0)
        sf := topBitSet w (wrapAdd w (operandValue i.dst s) (operandValue i.src s)) }

/-- `sub` (subRmReg, subImmRm, subImmAcc), when its memory operand raises no fault, completes: the destination takes the
difference destination minus source wrapped at the width, with the two flags of it, and nothing else changes
(42_arith.md section 1). The wrap at word width is the spec's decision D11; log entry 10. -/
def Obligations.SubStoresTheWrappedDifference : Prop :=
  ∀ (i : Instr) (s : State) (w : Width), i.mnemonic = .sub → operandWidth i.dst = some w →
    raisesMemFault i s = false →
    exec i s = .next
      { storeOperand i.dst (wrapSub w (operandValue i.dst s) (operandValue i.src s)) s with
        zf := decide ((wrapSub w (operandValue i.dst s) (operandValue i.src s)).toNat = 0)
        sf := topBitSet w (wrapSub w (operandValue i.dst s) (operandValue i.src s)) }

/-- `cmp` (cmpRmReg, cmpImmRm, cmpImmAcc), when its memory operand raises no fault, completes: the two flags are those of
the wrapped difference and nothing else changes (42_arith.md section 1). The wrap at word width is the spec's decision
D11; log entry 10. -/
def Obligations.CmpSetsTheFlagsOfTheDifference : Prop :=
  ∀ (i : Instr) (s : State) (w : Width), i.mnemonic = .cmp → operandWidth i.dst = some w →
    raisesMemFault i s = false →
    exec i s = .next
      { s with
        zf := decide ((wrapSub w (operandValue i.dst s) (operandValue i.src s)).toNat = 0)
        sf := topBitSet w (wrapSub w (operandValue i.dst s) (operandValue i.src s)) }

/-- The arithmetic as integers, for all nine ALU instructions: there is a result below `2^n`, the sum or difference of
the operands modulo `2^n`; `ZF` says it is 0, `SF` that it is at least `2^(n-1)`, never both; and `add` and `sub` leave
it in their destination (42_arith.md section 1, the flag truth table). The reduction at word width is the spec's
decision D11; log entry 10. -/
def Obligations.AluResultAndFlagsAsIntegers : Prop :=
  ∀ (i : Instr) (s : State) (w : Width), i.mnemonic.isAlu = true → operandWidth i.dst = some w →
    raisesMemFault i s = false →
    ∃ t, exec i s = .next t ∧ ∃ res : Nat, res < 2 ^ bits w ∧
      (i.mnemonic = .add → (res : Int) =
        (((operandValue i.dst s).toNat : Int) + (operandValue i.src s).toNat) % 2 ^ bits w) ∧
      (i.mnemonic ≠ .add → (res : Int) =
        (((operandValue i.dst s).toNat : Int) - (operandValue i.src s).toNat) % 2 ^ bits w) ∧
      t.zf = decide (res = 0) ∧ t.sf = decide (2 ^ (bits w - 1) ≤ res) ∧ ¬ (t.zf = true ∧ t.sf = true) ∧
      (i.mnemonic ≠ .cmp → (operandValue i.dst t).toNat = res)

/-- After `sub` and `cmp`, `ZF` is set exactly when the two operands agree at the operation's width (42_arith.md
section 1, the arithmetic laws). -/
def Obligations.ZeroFlagMeansEqualOperands : Prop :=
  ∀ (i : Instr) (s : State) (w : Width), i.mnemonic = .sub ∨ i.mnemonic = .cmp → operandWidth i.dst = some w →
    raisesMemFault i s = false →
    ∃ t, exec i s = .next t ∧
      (t.zf = true ↔ operandValue i.dst s &&& mask w = operandValue i.src s &&& mask w)

/-- A register subtracted from itself, in either direction form and at either width, is 0, with `ZF` set and `SF` clear,
whatever it held (42_arith.md section 3; 40_control_loop.md section 3, the order of reads and writes). -/
def Obligations.RegisterMinusItselfIsZero : Prop :=
  ∀ (d : Bool) (w : Width) (a : BitVec 3) (s : State),
    ∃ t, exec (.subRmReg d w a (.register a)) s = .next t ∧
      regRead ⟨a, w⟩ t.regs = 0x0000#16 ∧ t.zf = true ∧ t.sf = false

/-- The first byte `83`: a one-byte immediate is added to, or subtracted from, a word register by its signed value,
modulo 65536 (30_encoding.md section 4; 42_arith.md section 2). -/
def Obligations.ShortImmediateActsBySignedValue : Prop :=
  ∀ (a : BitVec 3) (x : Byte) (s : State),
    (∃ t, exec (.addImmRm true .word (.register a) (.imm8 x)) s = .next t ∧
      ((regRead ⟨a, .word⟩ t.regs).toNat : Int) = (((regRead ⟨a, .word⟩ s.regs).toNat : Int) + x.toInt) % 65536) ∧
    (∃ t, exec (.subImmRm true .word (.register a) (.imm8 x)) s = .next t ∧
      ((regRead ⟨a, .word⟩ t.regs).toNat : Int) = (((regRead ⟨a, .word⟩ s.regs).toNat : Int) - x.toInt) % 65536)

/-- R25: the flags are written by `add`, `sub`, `cmp` and read by `jne` alone, which reads `ZF`. An ALU instruction that
does not fault leaves a state in which nothing depends on the old flags, so it writes both; `mov` and the nineteen
branches carry the flags through untouched and unread; `jne` carries both through and does not read `SF`, and it reads
`ZF`: with a displacement other than 0, two states that differ in `ZF` alone have outcomes that differ in more than `ZF`;
and no instruction but `add`, `sub`, `cmp` changes a flag. That the nineteen have no effect at all is the spec's decision
D8; log entry 6. -/
def Obligations.FlagsAreWrittenByAluAndReadByJne : Prop :=
  ∀ (i : Instr) (s : State) (x y : Bool),
    (i.mnemonic.isAlu = true → raisesMemFault i s = false → exec i { s with zf := x, sf := y } = exec i s) ∧
    (i.mnemonic.isAlu = false → i.mnemonic ≠ .jne →
      exec i { s with zf := x, sf := y } = mapNext (fun t => { t with zf := x, sf := y }) (exec i s)) ∧
    (i.mnemonic = .jne → exec i { s with sf := y } = mapNext (fun t => { t with sf := y }) (exec i s)) ∧
    (∀ d, i = .jne d → d ≠ 0x00#8 →
      mapNext (fun t => { t with zf := x }) (exec i { s with zf := true }) ≠
        mapNext (fun t => { t with zf := x }) (exec i { s with zf := false })) ∧
    (∀ t, i.mnemonic.isAlu = false → exec i s = .next t → t.zf = s.zf ∧ t.sf = s.sf)

/-! ## The memory fault -/

/-- An instruction whose word-width memory operand lies at `0xFFFF` takes the fault and has no other effect: `status`
and `halt_reason` change, no register, flag, `last_write` or memory byte does, and `ip` keeps the advanced value it was
given. Such an instruction is a `mov`, `add`, `sub` or `cmp`. The spec's decisions D7 and D16; log entry 4. -/
def Obligations.MemoryFaultHasNoOtherEffect : Prop :=
  ∀ (i : Instr) (s : State), raisesMemFault i s = true →
    i.mnemonic.isData = true ∧
    exec i s = .next { s with status := .faulted, haltReason := .memOutOfRange }

/-! ## Branches -/

/-- `jne` with `ZF` set completes and changes nothing: `ip` stays at the next instruction (43_branch.md section 2,
case 1). -/
def Obligations.JneNotTakenChangesNothing : Prop :=
  ∀ (d : Byte) (s : State), s.zf = true → exec (.jne d) s = .next s

/-- `jne` with `ZF` clear and a target inside `0..65535` completes: `ip` becomes the advanced `ip` plus the signed
displacement, and nothing else changes (43_branch.md section 2, case 2). The 16-bit range of `ip` is the spec's decision
D5; log entry 3. -/
def Obligations.JneTakenMovesIpBySignedDisplacement : Prop :=
  ∀ (d : Byte) (s : State), s.zf = false →
    0 ≤ (s.ip.toNat : Int) + d.toInt → (s.ip.toNat : Int) + d.toInt ≤ 65535 →
    ∃ target : Word, exec (.jne d) s = .next { s with ip := target } ∧
      (target.toNat : Int) = (s.ip.toNat : Int) + d.toInt

/-- `jne` with `ZF` clear and a target outside `0..65535` halts with the truncated reason and leaves the target modulo
65536 in `ip` (43_branch.md section 2, case 3). This is the spec's decision D6; log entry 5. -/
def Obligations.JneOutOfRangeHalts : Prop :=
  ∀ (d : Byte) (s : State), s.zf = false →
    ((s.ip.toNat : Int) + d.toInt < 0 ∨ 65535 < (s.ip.toNat : Int) + d.toInt) →
    ∃ target : Word,
      exec (.jne d) s =
        .next { s with ip := target, status := .halted, haltReason := .truncatedInstruction } ∧
      (target.toNat : Int) = ((s.ip.toNat : Int) + d.toInt) % 65536

/-- The nineteen branches other than `jne` complete in every state and change nothing, whatever the flags, `cx` and the
displacement hold (43_branch.md section 3). This is the spec's decision D8; log entry 6. -/
def Obligations.NineteenBranchesHaveNoEffect : Prop :=
  ∀ (d : Byte) (s : State),
    exec (.jo d) s = .next s ∧ exec (.jno d) s = .next s ∧ exec (.jb d) s = .next s ∧ exec (.jnb d) s = .next s ∧
    exec (.je d) s = .next s ∧ exec (.jbe d) s = .next s ∧ exec (.jnbe d) s = .next s ∧ exec (.js d) s = .next s ∧
    exec (.jns d) s = .next s ∧ exec (.jp d) s = .next s ∧ exec (.jnp d) s = .next s ∧ exec (.jl d) s = .next s ∧
    exec (.jnl d) s = .next s ∧ exec (.jle d) s = .next s ∧ exec (.jnle d) s = .next s ∧
    exec (.loopnz d) s = .next s ∧ exec (.loopz d) s = .next s ∧ exec (.loop d) s = .next s ∧
    exec (.jcxz d) s = .next s

/-- The frame of the twenty branches: no register, flag, `last_write`, memory byte or byte of the image changes; and
what they do does not depend on any register or memory byte (43_branch.md section 1). Of the nineteen without effect it
rests on the spec's decision D8; log entry 6. -/
def Obligations.BranchesTouchNoData : Prop :=
  ∀ (i : Instr) (s : State), i.mnemonic.isBranch = true →
    (∀ t, exec i s = .next t →
      t.regs = s.regs ∧ t.zf = s.zf ∧ t.sf = s.sf ∧ t.lastWrite = s.lastWrite ∧ t.imem = s.imem ∧
      ∀ x, t.dmem.read x = s.dmem.read x) ∧
    (∀ (r : RegFile) (m : Memory),
      exec i { s with regs := r, dmem := m } = mapNext (fun t => { t with regs := r, dmem := m }) (exec i s))

/-- `jne` to its own first byte with `ZF` clear runs forever: however many steps are taken, the state is the same
(43_branch.md section 2, the corner case `75 FE`; 40_control_loop.md section 5). -/
def Obligations.JneToItselfNeverLeaves : Prop :=
  ∀ (s : State) (rest : List Byte), s.status = .running → s.imem.length ≤ 65535 → s.zf = false →
    s.imem.drop s.ip.toNat = 0x75#8 :: 0xFE#8 :: rest → ∀ k, runSteps k s = .next s

/-! ## Frames -/

/-- The frame of `mov`, `add`, `sub` with a register destination, when they do not fault: every other slot stays, and so
does the other half of the slot of a byte destination; `mov` keeps both flags; `last_write` is the destination; `ip`,
`status`, `halt_reason`, the image and every byte of data memory stay (40_control_loop.md section 3). -/
def Obligations.RegisterDestinationFrame : Prop :=
  ∀ (i : Instr) (s t : State) (a : RegAccess), i.mnemonic.isWriter = true → i.dst = .register a →
    raisesMemFault i s = false → exec i s = .next t →
    (∀ j, j ≠ accessSlot a → t.regs.get j = s.regs.get j) ∧
    (a.w = .byte → ∀ b : BitVec 3, b ≠ a.index → regRead ⟨b, .byte⟩ t.regs = regRead ⟨b, .byte⟩ s.regs) ∧
    (i.mnemonic = .mov → t.zf = s.zf ∧ t.sf = s.sf) ∧
    t.lastWrite = some a ∧ t.ip = s.ip ∧ t.status = s.status ∧ t.haltReason = s.haltReason ∧ t.imem = s.imem ∧
    ∀ x, t.dmem.read x = s.dmem.read x

/-- The frame of `mov`, `add`, `sub` with a memory destination, when they do not fault: every byte outside the width's
bytes at the effective address stays; every register and `last_write` stay; `mov` keeps both flags; `ip`, `status`,
`halt_reason` and the image stay (40_control_loop.md section 3, 20_memory.md section 3). -/
def Obligations.MemoryDestinationFrame : Prop :=
  ∀ (i : Instr) (s t : State) (m : MemAccess), i.mnemonic.isWriter = true → i.dst = .memory m →
    raisesMemFault i s = false → exec i s = .next t →
    (∀ x, ¬ ((effectiveAddress m s.regs).toNat ≤ x ∧
              x < (effectiveAddress m s.regs).toNat + accessBytes m.w) → t.dmem.read x = s.dmem.read x) ∧
    t.regs = s.regs ∧ t.lastWrite = s.lastWrite ∧ (i.mnemonic = .mov → t.zf = s.zf ∧ t.sf = s.sf) ∧
    t.ip = s.ip ∧ t.status = s.status ∧ t.haltReason = s.haltReason ∧ t.imem = s.imem

/-- The frame of `cmp`, when it does not fault: nothing changes but the two flags; its destination is never written
(42_arith.md section 4; 95_test_vectors.md X4). -/
def Obligations.CompareWritesOnlyFlags : Prop :=
  ∀ (i : Instr) (s t : State), i.mnemonic = .cmp → raisesMemFault i s = false → exec i s = .next t →
    t.regs = s.regs ∧ t.lastWrite = s.lastWrite ∧ t.ip = s.ip ∧ t.status = s.status ∧
    t.haltReason = s.haltReason ∧ t.imem = s.imem ∧ ∀ x, t.dmem.read x = s.dmem.read x

/-- `last_write` follows the most recent register write and is read by nothing: it becomes the destination of a `mov`,
`add` or `sub` to a register that does not fault and otherwise stays; and what an instruction or a step does apart from
it does not depend on it (10_state.md section 2). Its representation is the spec's decision D14; log entry 14. -/
def Obligations.LastWriteIsBookkeepingOnly : Prop :=
  (∀ (i : Instr) (s t : State), exec i s = .next t →
    (∀ a, i.mnemonic.isWriter = true → i.dst = .register a → raisesMemFault i s = false → t.lastWrite = some a) ∧
    (i.mnemonic.isWriter = false ∨ (∃ m, i.dst = .memory m) ∨ raisesMemFault i s = true →
      t.lastWrite = s.lastWrite)) ∧
  (∀ (s : State) (x : Option RegAccess),
    mapNext (fun t => { t with lastWrite := none }) (step { s with lastWrite := x }) =
      mapNext (fun t => { t with lastWrite := none }) (step s))

/-! ## The step -/

/-- When the bytes at `ip` begin with the encoding of a well-formed instruction, a step runs that instruction on the
state with `ip` moved past it, and the move does not wrap (40_control_loop.md section 2). The bound on the image is the
spec's decision D5; log entry 3. -/
def Obligations.StepRunsTheInstructionAtIp : Prop :=
  ∀ (s : State) (i : Instr) (rest : List Byte), i.wellFormed = true → s.status = .running →
    s.imem.length ≤ 65535 → s.imem.drop s.ip.toNat = encode i ++ rest →
    step s = exec i { s with ip := s.ip + BitVec.ofNat 16 (encode i).length } ∧
    (s.ip + BitVec.ofNat 16 (encode i).length).toNat = s.ip.toNat + (encode i).length

/-- R21: a step that decodes first moves `ip` past the bytes it decoded and then runs the instruction; only a taken
`jne` changes `ip` again; a step that fails to decode leaves it. -/
def Obligations.IpAdvancesAndOnlyATakenJneMovesItAgain : Prop :=
  (∀ (s : State) (i : Instr) (bytes rest : List Byte), s.status = .running → s.imem.length ≤ 65535 →
    decode s.bytesAtIp = .ok i rest → s.bytesAtIp = bytes ++ rest →
    step s = exec i { s with ip := s.ip + BitVec.ofNat 16 bytes.length }) ∧
  (∀ (i : Instr) (s t : State), exec i s = .next t → t.ip ≠ s.ip → ∃ d, i = .jne d ∧ s.zf = false) ∧
  (∀ (s t : State), decode s.bytesAtIp = .unrecognized ∨ decode s.bytesAtIp = .truncated → step s = .next t →
    t.ip = s.ip)

/-- R102: a step that begins with `ip` at the end of the image halts with the end-of-program reason and changes nothing
else; with an empty image the first step halts this way. -/
def Obligations.EndOfProgramHalts : Prop :=
  (∀ s : State, s.status = .running → s.ip.toNat = s.imem.length →
    step s = .next { s with status := .halted, haltReason := .endOfProgram }) ∧
  step (State.boot []) = .next { State.boot [] with status := .halted, haltReason := .endOfProgram }

/-- The order of the stopping conditions of a step (60_exceptions.md section 3): the end of the image; `ip` past it; an
unrecognised first byte, even as the last byte; a recognised first byte with no second; an illegal sub-operation; an
instruction cut after its second byte. In each the step halts with the reason and changes nothing else. Rests on the
spec's decisions D10, D12 and D16 (log entries 9 and 11); on the general-knowledge opcode bytes G1, for which first bytes
are recognised (log entry 7); and on its choice in conflict C2 that a missing byte, or an `ip` past the end, is a halt
with this reason (log entry 22). -/
def Obligations.StoppingConditionsInOrder : Prop :=
  ∀ s : State, s.status = .running → s.imem.length ≤ 65535 →
    let halts (r : HaltReason) : Prop := step s = .next { s with status := .halted, haltReason := r }
    (s.ip.toNat = s.imem.length → halts .endOfProgram) ∧
    (s.imem.length < s.ip.toNat → halts .truncatedInstruction) ∧
    (∀ b0 t, s.imem.drop s.ip.toNat = b0 :: t → recognisedFirstByte b0 = false → halts .unrecognizedOpcode) ∧
    (∀ b0, s.imem.drop s.ip.toNat = [b0] → recognisedFirstByte b0 = true → halts .truncatedInstruction) ∧
    (∀ b0 b1 t, s.imem.drop s.ip.toNat = b0 :: b1 :: t → illegalSubOperation b0 b1 = true →
      halts .unrecognizedOpcode) ∧
    (∀ (i : Instr) (n : Nat), i.wellFormed = true → 2 ≤ n → n < (encode i).length →
      s.imem.drop s.ip.toNat = (encode i).take n → halts .truncatedInstruction)

/-- R113: in a terminal state a step changes nothing, however many are taken, so the state and its halt reason stay;
reset leaves it, the machine running again with no halt reason. -/
def Obligations.TerminalStatesStay : Prop :=
  ∀ s : State, s.status = .halted ∨ s.status = .faulted →
    step s = .next s ∧ (∀ k, runSteps k s = .next s) ∧
    s.resetCore.status = .running ∧ s.resetCore.haltReason = .none

/-- Every stop is precise (60_exceptions.md section 2). When a step of a running machine ends in a terminal state, no
register, flag, `last_write`, memory byte or byte of the image has changed; and `ip` has not either, except for the
memory fault, which leaves it after the faulting instruction, and for a taken `jne` whose target is outside `0..65535`,
which leaves the target modulo 65536. Where `ip` stands rests on the spec's decisions D6 and D16; log entries 4 and 5. -/
def Obligations.EveryStopIsPrecise : Prop :=
  ∀ s t : State, s.status = .running → step s = .next t → t.status ≠ .running →
    t = { s with ip := t.ip, status := t.status, haltReason := t.haltReason } ∧
    (t.ip = s.ip ∨
      (t.haltReason = .memOutOfRange ∧ ∃ i bytes rest, decode s.bytesAtIp = .ok i rest ∧
        s.bytesAtIp = bytes ++ rest ∧ t.ip.toNat = s.ip.toNat + bytes.length) ∨
      ∃ d rest, decode s.bytesAtIp = .ok (.jne d) rest ∧ s.zf = false ∧
        ((s.ip.toNat : Int) + 2 + d.toInt < 0 ∨ 65535 < (s.ip.toNat : Int) + 2 + d.toInt) ∧
        (t.ip.toNat : Int) = ((s.ip.toNat : Int) + 2 + d.toInt) % 65536)

/-- Every instruction, on every state, answers a next state: none is refused and none ends a run outside the spec's own
terminal states (40_control_loop.md section 2; 60_exceptions.md section 1). That a stop is a next state is the model's
choice; log entry 15. -/
def Obligations.EveryInstructionAnswersANextState : Prop :=
  ∀ (i : Instr) (s : State), ∃ t, exec i s = .next t

/-- A step never answers `Host.Outcome.fault`: that a stop of the spec is a next state is the model's own choice, log
entry 15. And a step is refused exactly when the machine runs an image longer than 65535 bytes: the bound is the spec's
decision D5, which refuses such an image (70_reset_and_hazards.md section 2); log entry 3. -/
def Obligations.StepIsRefusedOnlyForAnOverlongImage : Prop :=
  ∀ s : State, (∀ f, step s ≠ .fault f) ∧
    ∀ r, step s = .refused r ↔ s.status = .running ∧ 65535 < s.imem.length ∧ r = .imageTooLong

/-- R54: stores are never seen by instruction fetch. No step changes the instruction memory, and what a step finds at
`ip` does not depend on data memory. -/
def Obligations.StoresAreNeverSeenByFetch : Prop :=
  (∀ s t : State, step s = .next t → t.imem = s.imem) ∧
  (∀ (s : State) (m : Memory), fetch { s with dmem := m } = fetch s)

/-- No instruction reads instruction memory as data: what it does does not depend on the image, which it carries through
(20_memory.md section 1). That there are two memories is the spec's choice in conflict C5; log entry 23. -/
def Obligations.NoInstructionReadsInstructionMemory : Prop :=
  ∀ (i : Instr) (s : State) (image : List Byte),
    exec i { s with imem := image } = mapNext (fun t => { t with imem := image }) (exec i s)

/-! ## Reset and the invariant -/

/-- The state after reset: the eight registers 0, both flags clear, `ip` 0, running, no halt reason, no last write, every
byte of data memory 0; and reset of a machine in any state gives that state with the image kept (10_state.md section 6,
70_reset_and_hazards.md section 1). The zeros are the spec's decisions D1 to D4 and D14; log entry 2. -/
def Obligations.ResetGivesTheSpecsState : Prop :=
  ∀ (s : State) (image : List Byte),
    (∀ j, (State.boot image).regs.get j = 0x0000#16) ∧ (State.boot image).zf = false ∧
    (State.boot image).sf = false ∧ (State.boot image).ip = 0x0000#16 ∧ (State.boot image).status = .running ∧
    (State.boot image).haltReason = .none ∧ (State.boot image).lastWrite = none ∧
    (∀ x, (State.boot image).dmem.read x = 0x00#8) ∧ (State.boot image).imem = image ∧
    s.resetCore = State.boot s.imem ∧ State.reset = State.boot []

/-- The invariant holds right after reset, with any legal image: memory in its canonical form, `status` and
`halt_reason` in agreement, `ip` where the halt reason says, the flags not both set (10_state.md sections 4 to 6). That
the flags are clear and memory is all zero after reset is the spec's decisions D2 and D4; log entry 2. -/
def Obligations.InvariantHoldsAfterReset : Prop :=
  MachineInv State.reset ∧ ∀ image : List Byte, image.length ≤ 65535 → MachineInv (State.boot image)

/-- Every step keeps the invariant, from every state that has it (40_control_loop.md sections 1 and 5: the final states'
`ip` and reasons; 42_arith.md section 1: the flags never both set; 20_memory.md: the memory). -/
def Obligations.EveryStepKeepsTheInvariant : Prop :=
  ∀ s t : State, MachineInv s → step s = .next t → MachineInv t

/-- A run of any legal image never leaves the machine: after every number of steps from reset there is a state, running
or in one of the spec's terminal states, where the run is over and the state stays (40_control_loop.md section 5); it
has the invariant, and the image is still the one that was loaded. It rests on the reset values, the spec's decisions D1
to D4; log entry 2. -/
def Obligations.EveryRunOfALegalImageHasAState : Prop :=
  ∀ (image : List Byte) (k : Nat), image.length ≤ 65535 →
    ∃ t, runSteps k (State.boot image) = .next t ∧ MachineInv t ∧ t.imem = image

/-! ## The Report interface -/

/-- A Report is made exactly for a step of a running machine that executes an instruction without a memory fault; it
holds the record of the instruction decoded at `ip` with the exact bytes consumed, the registers and flags before and
after the step, and the last write after it (40_control_loop.md section 4). Its content is the spec's decision D14; log
entry 14. -/
def Obligations.ReportsAreOfExecutedInstructions : Prop :=
  ∀ (s : State) (r : Report), s.imem.length ≤ 65535 →
    (report s = some r ↔
      ∃ i bytes rest t, s.status = .running ∧ decode s.bytesAtIp = .ok i rest ∧ s.bytesAtIp = bytes ++ rest ∧
        step s = .next t ∧ t.status ≠ .faulted ∧
        r = { ins := ⟨i.mnemonic, i.dst, i.src, s.ip.toNat, bytes⟩,
              before := ⟨s.regs, s.zf, s.sf⟩, after := ⟨t.regs, t.zf, t.sf⟩, lastWrite := t.lastWrite })
end

