-- ==== Sys2Proof/Laws/State.lean ====
section
/-! SUPPORT. One lemma per field per update of State, each true by rfl, so that no later proof unfolds an update. -/

namespace Sys2Proof.Machine

/-! ## writeReg -/

@[simp] theorem writeReg_regs (s : State) (a : RegAccess) (v : Word) : (s.writeReg a v).regs = regWrite a v s.regs := rfl
@[simp] theorem writeReg_ip (s : State) (a : RegAccess) (v : Word) : (s.writeReg a v).ip = s.ip := rfl
@[simp] theorem writeReg_zf (s : State) (a : RegAccess) (v : Word) : (s.writeReg a v).zf = s.zf := rfl
@[simp] theorem writeReg_sf (s : State) (a : RegAccess) (v : Word) : (s.writeReg a v).sf = s.sf := rfl
@[simp] theorem writeReg_status (s : State) (a : RegAccess) (v : Word) : (s.writeReg a v).status = s.status := rfl
@[simp] theorem writeReg_haltReason (s : State) (a : RegAccess) (v : Word) : (s.writeReg a v).haltReason = s.haltReason := rfl
@[simp] theorem writeReg_lastWrite (s : State) (a : RegAccess) (v : Word) : (s.writeReg a v).lastWrite = some a := rfl
@[simp] theorem writeReg_dmem (s : State) (a : RegAccess) (v : Word) : (s.writeReg a v).dmem = s.dmem := rfl
@[simp] theorem writeReg_imem (s : State) (a : RegAccess) (v : Word) : (s.writeReg a v).imem = s.imem := rfl

/-! ## advance -/

@[simp] theorem advance_regs (s : State) (n : Nat) : (s.advance n).regs = s.regs := rfl
@[simp] theorem advance_ip (s : State) (n : Nat) : (s.advance n).ip = s.ip + BitVec.ofNat 16 n := rfl
@[simp] theorem advance_zf (s : State) (n : Nat) : (s.advance n).zf = s.zf := rfl
@[simp] theorem advance_sf (s : State) (n : Nat) : (s.advance n).sf = s.sf := rfl
@[simp] theorem advance_status (s : State) (n : Nat) : (s.advance n).status = s.status := rfl
@[simp] theorem advance_haltReason (s : State) (n : Nat) : (s.advance n).haltReason = s.haltReason := rfl
@[simp] theorem advance_lastWrite (s : State) (n : Nat) : (s.advance n).lastWrite = s.lastWrite := rfl
@[simp] theorem advance_dmem (s : State) (n : Nat) : (s.advance n).dmem = s.dmem := rfl
@[simp] theorem advance_imem (s : State) (n : Nat) : (s.advance n).imem = s.imem := rfl

/-! ## raiseHalt -/

@[simp] theorem raiseHalt_regs (s : State) (r : HaltReason) : (s.raiseHalt r).regs = s.regs := rfl
@[simp] theorem raiseHalt_ip (s : State) (r : HaltReason) : (s.raiseHalt r).ip = s.ip := rfl
@[simp] theorem raiseHalt_zf (s : State) (r : HaltReason) : (s.raiseHalt r).zf = s.zf := rfl
@[simp] theorem raiseHalt_sf (s : State) (r : HaltReason) : (s.raiseHalt r).sf = s.sf := rfl
@[simp] theorem raiseHalt_status (s : State) (r : HaltReason) : (s.raiseHalt r).status = .halted := rfl
@[simp] theorem raiseHalt_haltReason (s : State) (r : HaltReason) : (s.raiseHalt r).haltReason = r := rfl
@[simp] theorem raiseHalt_lastWrite (s : State) (r : HaltReason) : (s.raiseHalt r).lastWrite = s.lastWrite := rfl
@[simp] theorem raiseHalt_dmem (s : State) (r : HaltReason) : (s.raiseHalt r).dmem = s.dmem := rfl
@[simp] theorem raiseHalt_imem (s : State) (r : HaltReason) : (s.raiseHalt r).imem = s.imem := rfl

/-! ## raiseFault -/

@[simp] theorem raiseFault_regs (s : State) (f : Fault) : (s.raiseFault f).regs = s.regs := rfl
@[simp] theorem raiseFault_ip (s : State) (f : Fault) : (s.raiseFault f).ip = s.ip := rfl
@[simp] theorem raiseFault_zf (s : State) (f : Fault) : (s.raiseFault f).zf = s.zf := rfl
@[simp] theorem raiseFault_sf (s : State) (f : Fault) : (s.raiseFault f).sf = s.sf := rfl
@[simp] theorem raiseFault_status (s : State) (f : Fault) : (s.raiseFault f).status = .faulted := rfl
@[simp] theorem raiseFault_haltReason (s : State) (f : Fault) : (s.raiseFault f).haltReason = f.reason := rfl
@[simp] theorem raiseFault_lastWrite (s : State) (f : Fault) : (s.raiseFault f).lastWrite = s.lastWrite := rfl
@[simp] theorem raiseFault_dmem (s : State) (f : Fault) : (s.raiseFault f).dmem = s.dmem := rfl
@[simp] theorem raiseFault_imem (s : State) (f : Fault) : (s.raiseFault f).imem = s.imem := rfl

/-! ## setFlags -/

@[simp] theorem setFlags_regs (s : State) (w : Width) (res : Word) : (s.setFlags w res).regs = s.regs := rfl
@[simp] theorem setFlags_ip (s : State) (w : Width) (res : Word) : (s.setFlags w res).ip = s.ip := rfl
@[simp] theorem setFlags_zf (s : State) (w : Width) (res : Word) : (s.setFlags w res).zf = zeroOf res := rfl
@[simp] theorem setFlags_sf (s : State) (w : Width) (res : Word) : (s.setFlags w res).sf = signOf w res := rfl
@[simp] theorem setFlags_status (s : State) (w : Width) (res : Word) : (s.setFlags w res).status = s.status := rfl
@[simp] theorem setFlags_haltReason (s : State) (w : Width) (res : Word) : (s.setFlags w res).haltReason = s.haltReason := rfl
@[simp] theorem setFlags_lastWrite (s : State) (w : Width) (res : Word) : (s.setFlags w res).lastWrite = s.lastWrite := rfl
@[simp] theorem setFlags_dmem (s : State) (w : Width) (res : Word) : (s.setFlags w res).dmem = s.dmem := rfl
@[simp] theorem setFlags_imem (s : State) (w : Width) (res : Word) : (s.setFlags w res).imem = s.imem := rfl

/-! ## reset and load -/

@[simp] theorem resetCore_regs (s : State) : s.resetCore.regs = State.reset.regs := rfl
@[simp] theorem resetCore_ip (s : State) : s.resetCore.ip = State.reset.ip := rfl
@[simp] theorem resetCore_zf (s : State) : s.resetCore.zf = State.reset.zf := rfl
@[simp] theorem resetCore_sf (s : State) : s.resetCore.sf = State.reset.sf := rfl
@[simp] theorem resetCore_status (s : State) : s.resetCore.status = State.reset.status := rfl
@[simp] theorem resetCore_haltReason (s : State) : s.resetCore.haltReason = State.reset.haltReason := rfl
@[simp] theorem resetCore_lastWrite (s : State) : s.resetCore.lastWrite = State.reset.lastWrite := rfl
@[simp] theorem resetCore_dmem (s : State) : s.resetCore.dmem = State.reset.dmem := rfl
@[simp] theorem resetCore_imem (s : State) : s.resetCore.imem = s.imem := rfl

@[simp] theorem boot_regs (image : List Byte) : (State.boot image).regs = State.reset.regs := rfl
@[simp] theorem boot_ip (image : List Byte) : (State.boot image).ip = State.reset.ip := rfl
@[simp] theorem boot_zf (image : List Byte) : (State.boot image).zf = State.reset.zf := rfl
@[simp] theorem boot_sf (image : List Byte) : (State.boot image).sf = State.reset.sf := rfl
@[simp] theorem boot_status (image : List Byte) : (State.boot image).status = State.reset.status := rfl
@[simp] theorem boot_haltReason (image : List Byte) : (State.boot image).haltReason = State.reset.haltReason := rfl
@[simp] theorem boot_lastWrite (image : List Byte) : (State.boot image).lastWrite = State.reset.lastWrite := rfl
@[simp] theorem boot_dmem (image : List Byte) : (State.boot image).dmem = State.reset.dmem := rfl
@[simp] theorem boot_imem (image : List Byte) : (State.boot image).imem = image := rfl

/-! ## the end of an instruction -/

@[simp] theorem finish_ok (s t : State) : s.finish (.ok t) = .next t := rfl

@[simp] theorem finish_error (s : State) (f : Fault) : s.finish (.error f) = .next (s.raiseFault f) := rfl

/-- An instruction that ends by `finish` ends in a next state. -/
theorem finish_next (s : State) (e : Except Fault State) : ∃ t, s.finish e = .next t := by
  cases e with
  | ok t => exact ⟨t, rfl⟩
  | error f => exact ⟨s.raiseFault f, rfl⟩

/-- The one fault leaves the one fault reason. -/
@[simp] theorem fault_reason (f : Fault) : f.reason = .memOutOfRange := by cases f; rfl

@[simp] theorem mapNext_next (g : State → State) (s : State) : mapNext g (.next s) = .next (g s) := rfl

end Sys2Proof.Machine
end

