-- ==== Sys2Proof/Laws/Registers.lean ====
section
/-! SUPPORT. The laws of the register file: slots, halves of a word, and what a read gives after a write. -/

namespace Sys2Proof.Machine

/-! ## Halves of a word -/

@[simp] theorem lowByte_pair (hi lo : Byte) : lowByte (pair hi lo) = lo := by
  apply BitVec.eq_of_getLsbD_eq
  intro i hi8
  simp only [lowByte, pair, BitVec.getLsbD_extractLsb', BitVec.getLsbD_append]
  simp [hi8]

@[simp] theorem highByte_pair (hi lo : Byte) : highByte (pair hi lo) = hi := by
  apply BitVec.eq_of_getLsbD_eq
  intro i hi8
  simp only [highByte, pair, BitVec.getLsbD_extractLsb', BitVec.getLsbD_append]
  have h1 : ¬ 8 + i < 8 := by omega
  have h2 : 8 + i - 8 = i := by omega
  simp [hi8, h2]

@[simp] theorem pair_high_low (v : Word) : pair (highByte v) (lowByte v) = v := by
  apply BitVec.eq_of_getLsbD_eq
  intro i hi
  simp only [highByte, lowByte, pair, BitVec.getLsbD_append, BitVec.getLsbD_extractLsb']
  by_cases h : i < 8
  · simp [h]
  · have h1 : i - 8 < 8 := by omega
    have h2 : 8 + (i - 8) = i := by omega
    simp [h, h1, h2]

theorem pair_toNat (hi lo : Byte) : (pair hi lo).toNat = hi.toNat * 256 + lo.toNat := by
  have hl := lo.isLt
  simp only [pair, BitVec.toNat_append, Nat.shiftLeft_eq]
  rw [← Nat.shiftLeft_eq, ← Nat.shiftLeft_add_eq_or_of_lt (by simpa using hl), Nat.shiftLeft_eq]

theorem lowByte_toNat (v : Word) : (lowByte v).toNat = v.toNat % 256 := by
  simp [lowByte, BitVec.extractLsb'_toNat]

theorem highByte_toNat (v : Word) : (highByte v).toNat = v.toNat / 256 := by
  have := v.isLt
  simp only [highByte, BitVec.extractLsb'_toNat, Nat.shiftRight_eq_div_pow]
  omega

@[simp] theorem lowByte_zext16 (b : Byte) : lowByte (zext16 b) = b := by
  apply BitVec.eq_of_toNat_eq
  have := b.isLt
  simp only [lowByte_toNat, zext16, BitVec.toNat_setWidth]
  omega

theorem zext16_toNat (b : Byte) : (zext16 b).toNat = b.toNat := by
  have := b.isLt
  simp only [zext16, BitVec.toNat_setWidth]
  omega

theorem zext16_lt (b : Byte) : (zext16 b).toNat < 256 := by
  rw [zext16_toNat]; exact b.isLt

/-! ## Slots -/

@[simp] theorem get_set_same (r : RegFile) (i : Slot) (v : Word) : (r.set i v).get i = v := by
  cases i <;> rfl

theorem get_set_other (r : RegFile) {i j : Slot} (v : Word) (h : j ≠ i) : (r.set i v).get j = r.get j := by
  cases i <;> cases j <;> first | rfl | exact absurd rfl h

/-- The eight slots determine the register file. -/
theorem regFile_ext {r q : RegFile} (h : ∀ i, r.get i = q.get i) : r = q := by
  cases r; cases q
  have a := h .ax
  have c := h .cx
  have d := h .dx
  have b := h .bx
  have e := h .sp
  have f := h .bp
  have g := h .si
  have k := h .di
  simp only [RegFile.get] at a c d b e f g k
  simp [*]

/-- A word index names one slot, and every slot has one. -/
theorem slotOf_inj {i j : BitVec 3} (h : slotOf i = slotOf j) : i = j := by
  revert i j; decide

/-- A byte index is determined by the slot and the half it reaches. -/
theorem byteIndex_ext {i j : BitVec 3} (hs : byteSlot i = byteSlot j) (hh : isHighHalf i = isHighHalf j) : i = j := by
  revert i j; decide

/-! ## Register accesses -/

/-- What a register write does to a slot, whatever its width: only the slot of the access changes. -/
theorem regWrite_get_other (a : RegAccess) (v : Word) (r : RegFile) {j : Slot} (h : j ≠ accessSlot a) :
    (regWrite a v r).get j = r.get j := by
  obtain ⟨i, w⟩ := a
  cases w with
  | word => exact get_set_other r v h
  | byte =>
    simp only [regWrite]
    split <;> exact get_set_other r _ h

/-- R14: what a byte write leaves in its slot. -/
theorem regWrite_byte_slot (i : BitVec 3) (v : Word) (r : RegFile) :
    (regWrite ⟨i, .byte⟩ v r).get (byteSlot i) =
      if isHighHalf i then pair (lowByte v) (lowByte (r.get (byteSlot i)))
      else pair (highByte (r.get (byteSlot i))) (lowByte v) := by
  simp only [regWrite]
  split <;> simp

/-- R13: what a word write leaves in its slot. -/
theorem regWrite_word_slot (i : BitVec 3) (v : Word) (r : RegFile) :
    (regWrite ⟨i, .word⟩ v r).get (slotOf i) = v := get_set_same r _ v

/-- A read of the half that a byte write addressed gives the byte written. -/
theorem regRead_regWrite_byte (i : BitVec 3) (v : Word) (r : RegFile) :
    regRead ⟨i, .byte⟩ (regWrite ⟨i, .byte⟩ v r) = zext16 (lowByte v) := by
  simp only [regRead, regWrite_byte_slot]
  split <;> simp

/-- A read of the slot that a word write addressed gives the word written. -/
theorem regRead_regWrite_word (i : BitVec 3) (v : Word) (r : RegFile) :
    regRead ⟨i, .word⟩ (regWrite ⟨i, .word⟩ v r) = v := get_set_same r _ v

/-- R12: a byte read is below 256. -/
theorem regRead_byte_lt (i : BitVec 3) (r : RegFile) : (regRead ⟨i, .byte⟩ r).toNat < 256 := by
  simp only [regRead]
  split <;> exact zext16_lt _

end Sys2Proof.Machine
end

