-- ==== Sys2Proof/Laws/Decode.lean ====
section
/-! SUPPORT. The laws of the decoder's parts: the fields of the second byte, the bytes each part consumes, and what a
shape routine gives back. -/

namespace Sys2Proof

/-! ## Words as bytes -/

@[simp] theorem takeWord_wordBytes (v : Word) (rest : List Byte) : takeWord (wordBytes v ++ rest) = some (v, rest) := by
  simp [wordBytes, takeWord, Machine.pair_high_low]

@[simp] theorem takeByte_cons (b : Byte) (rest : List Byte) : takeByte (b :: rest) = some (b, rest) := rfl

theorem takeByte_some {bs rest : List Byte} {b : Byte} (h : takeByte bs = some (b, rest)) : bs = b :: rest := by
  cases bs with
  | nil => cases h
  | cons c t => cases h; rfl

theorem takeWord_some {bs rest : List Byte} {v : Word} (h : takeWord bs = some (v, rest)) :
    bs = wordBytes v ++ rest := by
  match bs, h with
  | lo :: hi :: t, h =>
    cases h
    simp [wordBytes, Machine.lowByte_pair, Machine.highByte_pair]

/-- R79: the bytes of a word, as numbers. -/
theorem wordBytes_eq_lowHigh (v : Word) : wordBytes v = Machine.lowHigh v := by
  simp only [wordBytes, Machine.lowHigh, List.cons.injEq, and_true]
  constructor <;> apply BitVec.eq_of_toNat_eq <;> simp [lowByte, highByte, Nat.shiftRight_eq_div_pow]

/-- R9: zero extension keeps the unsigned value. -/
theorem zext16_eq_ofNat (b : Byte) : zext16 b = BitVec.ofNat 16 b.toNat := by simp [zext16, BitVec.ofNat_toNat]

/-- R9: sign extension keeps the signed value. -/
theorem sext16_eq_ofInt (b : Byte) : sext16 b = BitVec.ofInt 16 b.toInt := by simp [sext16, BitVec.signExtend]

/-! ## The second byte -/

@[simp] theorem mod_modRegRm (m : BitVec 2) (reg rm : BitVec 3) :
    fieldMod.read (modRegRm m reg rm) = m.setWidth 8 := by
  revert m reg rm; decide

@[simp] theorem reg_modRegRm (m : BitVec 2) (reg rm : BitVec 3) : fieldReg.code (modRegRm m reg rm) = reg := by
  revert m reg rm; decide

@[simp] theorem rm_modRegRm (m : BitVec 2) (reg rm : BitVec 3) : fieldRm.code (modRegRm m reg rm) = rm := by
  revert m reg rm; decide

set_option maxRecDepth 4000 in
/-- R68: the three fields are the whole byte. -/
theorem modRegRm_fields (m : Byte) :
    modRegRm ((fieldMod.read m).setWidth 2) (fieldReg.code m) (fieldRm.code m) = m := by
  revert m; decide

set_option maxRecDepth 4000 in
/-- R68: `mod` is one of four values. -/
theorem fieldMod_cases (m : Byte) :
    fieldMod.read m = 0b00#8 ∨ fieldMod.read m = 0b01#8 ∨ fieldMod.read m = 0b10#8 ∨ fieldMod.read m = 0b11#8 := by
  revert m; decide

/-! ## The r/m operand -/

/-- R68: the second byte as a number. -/
theorem modRegRm_eq_ofNat (m : BitVec 2) (reg rm : BitVec 3) :
    modRegRm m reg rm = BitVec.ofNat 8 (m.toNat * 64 + reg.toNat * 8 + rm.toNat) := by
  revert m reg rm; decide

/-- R68, R76: the second byte and the displacement bytes, as numbers. -/
theorem rmField_encode_eq (reg : BitVec 3) (rm : RmField) : rm.encode reg = Machine.modRmBytes reg rm := by
  cases rm <;> simp only [RmField.encode, Machine.modRmBytes, RmField.modBits, RmField.rmBits, RmField.trailing,
    modRegRm_eq_ofNat, wordBytes_eq_lowHigh] <;> rfl

/-- R70: the bytes of an immediate, as numbers. -/
theorem immField_encode_eq (imm : ImmField) : imm.encode = Machine.immediateBytes imm := by
  cases imm <;> simp only [ImmField.encode, Machine.immediateBytes, wordBytes_eq_lowHigh]

/-- R76: the displacement bytes of a well-formed r/m operand give the operand back. -/
theorem takeRm_encode {rm : RmField} (h : rm.wellFormed = true) (rest : List Byte) :
    takeRm (rm.modBits.setWidth 8) rm.rmBits (rm.trailing ++ rest) = some (rm, rest) := by
  cases rm with
  | register c => rfl
  | noDisp c =>
    have hc : c ≠ 0b110#3 := by simpa [RmField.wellFormed] using h
    simp [takeRm, RmField.modBits, RmField.rmBits, RmField.trailing, hc]
  | direct a => simp [takeRm, RmField.modBits, RmField.rmBits, RmField.trailing]
  | disp8 c d => simp [takeRm, RmField.modBits, RmField.rmBits, RmField.trailing]
  | disp16 c d => simp [takeRm, RmField.modBits, RmField.rmBits, RmField.trailing]

/-- R76: what the r/m operand constructor consumes. -/
theorem takeRm_some {m : Byte} {c : BitVec 3} {bs rest : List Byte} {rm : RmField}
    (hm : m = 0b00#8 ∨ m = 0b01#8 ∨ m = 0b10#8 ∨ m = 0b11#8) (h : takeRm m c bs = some (rm, rest)) :
    rm.wellFormed = true ∧ rm.modBits = m.setWidth 2 ∧ rm.rmBits = c ∧ bs = rm.trailing ++ rest := by
  rcases hm with rfl | rfl | rfl | rfl
  · by_cases hc : c = 0b110#3
    · obtain ⟨v, hv, rfl⟩ : ∃ v, takeWord bs = some (v, rest) ∧ RmField.direct v = rm := by simpa [takeRm, hc] using h
      exact ⟨rfl, rfl, hc.symm, takeWord_some hv⟩
    · have he : some (RmField.noDisp c, bs) = some (rm, rest) := by simpa [takeRm, hc] using h
      cases he
      exact ⟨by simp [RmField.wellFormed, hc], rfl, rfl, rfl⟩
  · obtain ⟨v, hv, rfl⟩ : ∃ v, takeByte bs = some (v, rest) ∧ RmField.disp8 c v = rm := by simpa [takeRm] using h
    exact ⟨rfl, rfl, rfl, takeByte_some hv⟩
  · obtain ⟨v, hv, rfl⟩ : ∃ v, takeWord bs = some (v, rest) ∧ RmField.disp16 c v = rm := by simpa [takeRm] using h
    exact ⟨rfl, rfl, rfl, takeWord_some hv⟩
  · have he : some (RmField.register c, bs) = some (rm, rest) := by simpa [takeRm] using h
    cases he
    exact ⟨rfl, rfl, rfl, rfl⟩

/-- The second byte and displacement of a well-formed r/m operand, read back. -/
theorem takeModRm_encode {rm : RmField} (h : rm.wellFormed = true) (reg : BitVec 3) (rest : List Byte) :
    takeModRm (rm.encode reg ++ rest) = some (modRegRm rm.modBits reg rm.rmBits, rm, rest) := by
  simp [takeModRm, RmField.encode, takeRm_encode h]

/-- What the second byte and displacement consume. -/
theorem takeModRm_some {bs rest : List Byte} {m : Byte} {rm : RmField} (h : takeModRm bs = some (m, rm, rest)) :
    rm.wellFormed = true ∧ bs = rm.encode (fieldReg.code m) ++ rest ∧ bs.head? = some m := by
  cases bs with
  | nil => cases h
  | cons c t =>
    simp only [takeModRm, takeByte_cons, Option.bind_eq_bind, Option.bind_some] at h
    obtain ⟨⟨rm', t'⟩, hr, he⟩ := Option.bind_eq_some_iff.mp h
    cases he
    obtain ⟨hwf, hmod, hrm, ht⟩ := takeRm_some (fieldMod_cases _) hr
    refine ⟨hwf, ?_, rfl⟩
    simp only [RmField.encode, hmod, hrm, modRegRm_fields, ht, List.cons_append]

/-! ## The immediate -/

/-- R71: the immediate's bytes, read back. -/
theorem takeImm_encode {imm : ImmField} {n : Nat} (h : imm.isTwoBytes = decide (n = 2)) (rest : List Byte) :
    takeImm n (imm.encode ++ rest) = some (imm, rest) := by
  cases imm with
  | imm8 b =>
    have hn : n ≠ 2 := by simpa [ImmField.isTwoBytes] using h
    simp [takeImm, hn, ImmField.encode]
  | imm16 v =>
    have hn : n = 2 := by simpa [ImmField.isTwoBytes] using h
    simp [takeImm, hn, ImmField.encode]

/-- R71: what an immediate consumes. -/
theorem takeImm_some {n : Nat} {bs rest : List Byte} {imm : ImmField} (h : takeImm n bs = some (imm, rest)) :
    imm.isTwoBytes = decide (n = 2) ∧ bs = imm.encode ++ rest := by
  unfold takeImm at h
  split at h
  · next hn =>
    obtain ⟨⟨v, t⟩, hv, he⟩ := Option.map_eq_some_iff.mp h
    cases he
    exact ⟨by simp [ImmField.isTwoBytes, hn], takeWord_some hv⟩
  · next hn =>
    obtain ⟨⟨v, t⟩, hv, he⟩ := Option.map_eq_some_iff.mp h
    cases he
    exact ⟨by simp [ImmField.isTwoBytes, hn], takeByte_some hv⟩

theorem isTwoBytes_of_fitsWidth {imm : ImmField} {w : Width} (h : imm.fitsWidth w = true) :
    imm.isTwoBytes = decide (immBytesOfWidth w = 2) := by
  cases imm <;> cases w <;> simp_all [ImmField.fitsWidth, ImmField.isTwoBytes, immBytesOfWidth]

theorem isTwoBytes_of_fitsWidth_mov {imm : ImmField} {w : Width} (h : imm.fitsWidth w = true) :
    imm.isTwoBytes = decide (immBytes true false w = 2) := by
  cases imm <;> cases w <;> simp_all [ImmField.fitsWidth, ImmField.isTwoBytes, immBytes]

theorem isTwoBytes_of_fitsSignExtend {imm : ImmField} {s : Bool} {w : Width} (h : imm.fitsSignExtend s w = true) :
    imm.isTwoBytes = decide (immBytes false s w = 2) := by
  cases imm <;> cases w <;> cases s <;> simp_all [ImmField.fitsSignExtend, ImmField.isTwoBytes, immBytes]

/-! ## The shape routines -/

/-- R87: what a shape routine leaves is the end of what it was given, at least one byte shorter. -/
theorem parse_suffix {l : Layout} {b0 : Byte} {bs rest : List Byte} {i : Instr} (h : l.parse b0 bs = some (i, rest)) :
    ∃ c used, bs = c :: used ++ rest := by
  have modRm : ∀ {m : Byte} {rm : RmField} {t : List Byte}, takeModRm bs = some (m, rm, t) →
      ∃ c used, bs = c :: used ++ t := fun hm => ⟨_, _, (takeModRm_some hm).2.1⟩
  have imm : ∀ {n : Nat} {ts : List Byte} {x : ImmField} {t : List Byte}, takeImm n ts = some (x, t) →
      ∃ c used, ts = c :: used ++ t := by
    intro n ts x t hx
    cases x with
    | imm8 b => exact ⟨b, [], (takeImm_some hx).2⟩
    | imm16 v => exact ⟨lowByte v, [highByte v], (takeImm_some hx).2⟩
  cases l with
  | rmReg mk =>
    obtain ⟨⟨m, rm, t⟩, hm, he⟩ := Option.bind_eq_some_iff.mp h
    cases he
    exact modRm hm
  | immRmMov mk =>
    obtain ⟨⟨m, rm, t⟩, hm, he⟩ := Option.bind_eq_some_iff.mp h
    obtain ⟨⟨x, u⟩, hx, he⟩ := Option.bind_eq_some_iff.mp he
    cases he
    obtain ⟨c, used, rfl⟩ := modRm hm
    obtain ⟨d, more, rfl⟩ := imm hx
    exact ⟨c, used ++ d :: more, by simp⟩
  | immRm mk =>
    obtain ⟨⟨m, rm, t⟩, hm, he⟩ := Option.bind_eq_some_iff.mp h
    obtain ⟨⟨x, u⟩, hx, he⟩ := Option.bind_eq_some_iff.mp he
    cases he
    obtain ⟨c, used, rfl⟩ := modRm hm
    obtain ⟨d, more, rfl⟩ := imm hx
    exact ⟨c, used ++ d :: more, by simp⟩
  | immAcc mk =>
    obtain ⟨⟨x, u⟩, hx, he⟩ := Option.bind_eq_some_iff.mp h
    cases he
    exact imm hx
  | immReg mk =>
    obtain ⟨⟨x, u⟩, hx, he⟩ := Option.bind_eq_some_iff.mp h
    cases he
    exact imm hx
  | branch mk =>
    obtain ⟨⟨d, u⟩, hd, he⟩ := Option.bind_eq_some_iff.mp h
    cases he
    exact ⟨d, [], takeByte_some hd⟩

/-! ## The matcher -/

/-- R65: a row the matcher finds is a row of the table whose two conditions hold. -/
theorem findRow_some {b0 b1 : Byte} {e : Encoding} (h : findRow b0 b1 = some e) :
    e ∈ table ∧ e.primary.holds b0 = true ∧ e.secondary.holds b1 = true := by
  have hp := List.find?_some h
  simp only [Encoding.holds, Bool.and_eq_true] at hp
  exact ⟨List.mem_of_find?_eq_some h, hp.1, hp.2⟩

/-- R87: all the decoder can do when it decodes an instruction. -/
theorem decode_ok {bs rest : List Byte} {i : Instr} (h : decode bs = .ok i rest) :
    ∃ b0 b1 t e, bs = b0 :: b1 :: t ∧ findRow b0 b1 = some e ∧ e.layout.parse b0 (b1 :: t) = some (i, rest) := by
  match bs, h with
  | [b0], h =>
    simp only [decode] at h
    split at h <;> cases h
  | b0 :: b1 :: t, h =>
    simp only [decode] at h
    split at h
    · split at h
      · cases h
      · next e he =>
        split at h
        · cases h
        · next i' after hp =>
          cases h
          exact ⟨b0, b1, t, e, rfl, he, hp⟩
    · cases h

/-- R60, R87: a decoded instruction takes at least two bytes, and what is left is the end of what was given. -/
theorem decode_suffix {bs rest : List Byte} {i : Instr} (h : decode bs = .ok i rest) :
    ∃ used, bs = used ++ rest ∧ 2 ≤ used.length := by
  obtain ⟨b0, b1, t, e, rfl, _, hp⟩ := decode_ok h
  obtain ⟨c, used, hc⟩ := parse_suffix hp
  exact ⟨b0 :: c :: used, by simp [hc], by simp⟩

/-- R87: when the first byte matches a row and the pair finds one, the decoder gives what the row's routine gives. -/
theorem decode_of_findRow {b0 b1 : Byte} {t : List Byte} {e : Encoding} (h : findRow b0 b1 = some e) :
    decode (b0 :: b1 :: t) =
      match e.layout.parse b0 (b1 :: t) with
      | none => .truncated
      | some (i, after) => .ok i after := by
  have hm := findRow_some h
  have ha : table.any (fun e => e.primary.holds b0) = true := List.any_eq_true.mpr ⟨e, hm.1, hm.2.1⟩
  cases hp : e.layout.parse b0 (b1 :: t) <;> simp [decode, ha, h, hp]

end Sys2Proof
end

