-- ==== Sys2Proof/Laws/Memory.lean ====
section
/-! SUPPORT. The laws of data memory: what a byte reads as after a store, and that every operation keeps the canonical
form. The read laws hold of every list of cells, canonical or not. -/

namespace Sys2Proof.Machine

@[simp] theorem Memory.read_nil (a : Nat) : Memory.read [] a = Config.unlistedByte := rfl

theorem Memory.read_cons (k : Nat) (b : Byte) (t : Memory) (a : Nat) :
    Memory.read ((k, b) :: t) a = if a = k then b else Memory.read t a := rfl

theorem Memory.read_filter_same (m : Memory) (a : Nat) :
    Memory.read (m.filter fun c => c.1 != a) a = Config.unlistedByte := by
  induction m with
  | nil => rfl
  | cons c t ih =>
    obtain ⟨k, b⟩ := c
    by_cases h : k = a
    · simpa [List.filter_cons, h] using ih
    · simpa [List.filter_cons, h, Memory.read_cons, Ne.symm h] using ih

theorem Memory.read_filter_other (m : Memory) {a x : Nat} (h : x ≠ a) :
    Memory.read (m.filter fun c => c.1 != a) x = Memory.read m x := by
  induction m with
  | nil => rfl
  | cons c t ih =>
    obtain ⟨k, b⟩ := c
    by_cases hk : k = a
    · subst hk
      simpa [List.filter_cons, Memory.read_cons, h] using ih
    · simp only [List.filter_cons, bne_iff_ne, ne_eq, hk, not_false_eq_true, if_true, Memory.read_cons, ih]

theorem Memory.read_insert_same (m : Memory) (a : Nat) (b : Byte) (h : ∀ c ∈ m, c.1 ≠ a) :
    Memory.read (Memory.insert m a b) a = b := by
  induction m with
  | nil => simp [Memory.insert, Memory.read_cons]
  | cons c t ih =>
    obtain ⟨k, d⟩ := c
    have hk : k ≠ a := h (k, d) (by simp)
    simp only [Memory.insert]
    split
    · simp [Memory.read_cons]
    · simp only [Memory.read_cons, Ne.symm hk, if_false]
      exact ih fun c hc => h c (by simp [hc])

theorem Memory.read_insert_other (m : Memory) {a x : Nat} (b : Byte) (h : x ≠ a) :
    Memory.read (Memory.insert m a b) x = Memory.read m x := by
  induction m with
  | nil => simp [Memory.insert, Memory.read_cons, h]
  | cons c t ih =>
    obtain ⟨k, d⟩ := c
    simp only [Memory.insert]
    split
    · simp [Memory.read_cons, h]
    · simp only [Memory.read_cons, ih]

/-- R52: a byte read after a store to its address gives the byte stored. -/
@[simp] theorem Memory.read_write_same (m : Memory) (a : Nat) (b : Byte) : Memory.read (Memory.write m a b) a = b := by
  unfold Memory.write
  split
  · next h => rw [Memory.read_filter_same, h]
  · apply Memory.read_insert_same
    intro c hc
    simpa using (List.mem_filter.mp hc).2

/-- R45: no other byte changes. -/
theorem Memory.read_write_other (m : Memory) {a x : Nat} (b : Byte) (h : x ≠ a) :
    Memory.read (Memory.write m a b) x = Memory.read m x := by
  unfold Memory.write
  split
  · exact Memory.read_filter_other m h
  · rw [Memory.read_insert_other _ b h, Memory.read_filter_other m h]

/-! ## The canonical form -/

theorem Memory.mem_insert {m : Memory} {a : Nat} {b : Byte} {c : Host.Cell} (h : c ∈ Memory.insert m a b) :
    c = (a, b) ∨ c ∈ m := by
  induction m with
  | nil => simpa [Memory.insert] using h
  | cons d t ih =>
    simp only [Memory.insert] at h
    split at h
    · rcases List.mem_cons.mp h with h | h
      · exact .inl h
      · exact .inr h
    · rcases List.mem_cons.mp h with h | h
      · exact .inr (by simp [h])
      · exact (ih h).imp id fun h => by simp [h]

theorem Memory.insert_rising {m : Memory} {a : Nat} {b : Byte} (hm : m.Pairwise (fun c d => c.1 < d.1))
    (ha : ∀ c ∈ m, c.1 ≠ a) : (Memory.insert m a b).Pairwise (fun c d => c.1 < d.1) := by
  induction m with
  | nil => simp [Memory.insert]
  | cons d t ih =>
    obtain ⟨k, e⟩ := d
    have hp := List.pairwise_cons.mp hm
    have hk : k ≠ a := ha (k, e) (by simp)
    simp only [Memory.insert]
    split
    · next hlt =>
      refine List.pairwise_cons.mpr ⟨fun c hc => ?_, hm⟩
      rcases List.mem_cons.mp hc with rfl | hc
      · exact hlt
      · exact Nat.lt_trans hlt (hp.1 c hc)
    · next hlt =>
      refine List.pairwise_cons.mpr ⟨fun c hc => ?_, ih hp.2 fun c hc => ha c (by simp [hc])⟩
      rcases Memory.mem_insert hc with rfl | hc
      · show k < a
        omega
      · exact hp.1 c hc

/-- A store keeps the canonical form. -/
theorem Memory.write_wf {m : Memory} (hm : m.wf) {a : Nat} (ha : a < Config.dmemSize) (b : Byte) :
    (Memory.write m a b).wf := by
  have hf : Memory.wf (m.filter fun c => c.1 != a) :=
    ⟨hm.1.filter _, fun c hc => hm.2 c (List.mem_filter.mp hc).1⟩
  unfold Memory.write
  split
  · exact hf
  · next hb =>
    refine ⟨Memory.insert_rising hf.1 fun c hc => by simpa using (List.mem_filter.mp hc).2, fun c hc => ?_⟩
    rcases Memory.mem_insert hc with rfl | hc
    · exact ⟨ha, hb⟩
    · exact hf.2 c hc

/-- Data memory after reset is in its canonical form. -/
theorem reset_memory_wf : State.reset.dmem.wf := by
  constructor <;> simp [State.reset]

/-! ## The access primitives -/

@[simp] theorem memRead_byte (m : Memory) (addr : Word) :
    memRead m addr .byte = .ok (zext16 (m.read addr.toNat)) := rfl

theorem memRead_word (m : Memory) {addr : Word} (h : addr ≠ topAddress) :
    memRead m addr .word = .ok (pair (m.read (addr.toNat + 1)) (m.read addr.toNat)) := by
  simp [memRead, h]

@[simp] theorem memWrite_byte (m : Memory) (addr : Word) (v : Word) :
    memWrite m addr .byte v = .ok (m.write addr.toNat (lowByte v)) := rfl

theorem memWrite_word (m : Memory) {addr : Word} (h : addr ≠ topAddress) (v : Word) :
    memWrite m addr .word v =
      .ok ((m.write addr.toNat (lowByte v)).write (addr.toNat + 1) (highByte v)) := by
  simp [memWrite, h]

/-- An address that is not the top one has a next address inside data memory. -/
theorem succ_lt_dmemSize {addr : Word} (h : addr ≠ topAddress) : addr.toNat + 1 < Config.dmemSize := by
  have hlt := addr.isLt
  have hne : addr.toNat ≠ 65535 := fun he => h (BitVec.eq_of_toNat_eq he)
  simp only [Config.dmemSize]
  omega

/-- Every store of the machine keeps the canonical form. -/
theorem memWrite_wf {m q : Memory} (hm : m.wf) {addr : Word} {w : Width} {v : Word}
    (h : memWrite m addr w v = .ok q) : q.wf := by
  have hlt : addr.toNat < Config.dmemSize := addr.isLt
  cases w with
  | byte =>
    cases h
    exact Memory.write_wf hm hlt _
  | word =>
    by_cases ht : addr = topAddress
    · simp [memWrite, ht] at h
    · rw [memWrite_word m ht] at h
      cases h
      exact Memory.write_wf (Memory.write_wf hm hlt _) (succ_lt_dmemSize ht) _

end Sys2Proof.Machine
end

