-- ==== Sys2Proof/Laws/Operands.lean ====
section
/-! SUPPORT. What the operand operations and the shared operations `mov`, `alu`, `execJne` can do, each said once. -/

namespace Sys2Proof.Machine

/-! ## Operands -/

theorem outOfRange_eq (p : Place) (s : State) : outOfRange p s = operandAtTop p.operand s.regs := by
  cases p <;> rfl

/-- R106: reading an operand in range gives its value. -/
theorem readPlace_inRange {p : Place} {s : State} (h : outOfRange p s = false) :
    readPlace p s = .ok (operandValue p.operand s) := by
  cases p with
  | register a => rfl
  | memory m =>
    obtain ⟨b1, b2, d, w⟩ := m
    cases w with
    | byte => rfl
    | word =>
      have ht : effectiveAddress ⟨b1, b2, d, .word⟩ s.regs ≠ topAddress := by
        simpa [outOfRange] using h
      exact memRead_word _ ht

/-- R107: writing an operand in range stores into it. -/
theorem opWrite_inRange {p : Place} {s : State} (h : outOfRange p s = false) (v : Word) :
    opWrite p v s = .ok (storeOperand p.operand v s) := by
  cases p with
  | register a => rfl
  | memory m =>
    obtain ⟨b1, b2, d, w⟩ := m
    cases w with
    | byte => rfl
    | word =>
      have ht : effectiveAddress ⟨b1, b2, d, .word⟩ s.regs ≠ topAddress := by
        simpa [outOfRange] using h
      simp only [opWrite, memWrite_word _ ht]
      rfl

/-- R109: the check of a source operand. -/
def sourceOutOfRange (v : Source) (s : State) : Bool := operandAtTop v.operand s.regs

theorem checkMem_eq (v : Source) (s : State) :
    checkMem v s = if sourceOutOfRange v s then .error .memOutOfRange else .ok () := by
  cases v with
  | place p => simp only [checkMem, checkPlace, outOfRange_eq]; rfl
  | immediate x => rfl

theorem opRead_inRange {v : Source} {s : State} (h : sourceOutOfRange v s = false) :
    opRead v s = .ok (operandValue v.operand s) := by
  cases v with
  | place p => exact readPlace_inRange (by rw [outOfRange_eq]; exact h)
  | immediate x => rfl

theorem opWidth_eq (p : Place) : operandWidth p.operand = some (opWidth p) := by
  cases p <;> rfl

/-- A store into an operand uses only the low bits of its width. -/
theorem storeOperand_mask (p : Place) (v : Word) (s : State) :
    storeOperand p.operand (v &&& mask (opWidth p)) s = storeOperand p.operand v s := by
  have hb : lowByte (v &&& 0x00FF#16) = lowByte v := by
    apply BitVec.eq_of_getLsbD_eq
    intro i hi
    have h8 : i < 8 := hi
    have hm : (0x00FF#16).getLsbD i = true := by
      revert h8; revert i; decide
    simp [lowByte, BitVec.getLsbD_extractLsb', BitVec.getLsbD_and, hm]
  have hw : v &&& 0xFFFF#16 = v := by
    have : (0xFFFF#16) = BitVec.allOnes 16 := rfl
    rw [this, BitVec.and_allOnes]
  cases p with
  | register a =>
    obtain ⟨i, w⟩ := a
    cases w with
    | byte => simp only [opWidth, mask, Place.operand, storeOperand, regWrite, hb]
    | word => simp only [opWidth, mask, hw]
  | memory m =>
    obtain ⟨b1, b2, d, w⟩ := m
    cases w with
    | byte => simp only [opWidth, mask, Place.operand, storeOperand, hb]
    | word => simp only [opWidth, mask, hw]

/-! ## mov -/

/-- R120: all a `mov` can do. -/
theorem mov_eq (dst : Place) (src : Source) (s : State) :
    mov dst src s =
      if outOfRange dst s || sourceOutOfRange src s then .next (s.raiseFault .memOutOfRange)
      else .next (storeOperand dst.operand (operandValue src.operand s) s) := by
  unfold mov movEffect
  cases hd : outOfRange dst s with
  | true => simp [checkPlace, hd, bind, Except.bind]
  | false =>
    cases hs : sourceOutOfRange src s with
    | true => simp [checkPlace, hd, checkMem_eq, hs, bind, Except.bind]
    | false =>
      simp [checkPlace, hd, checkMem_eq, hs, bind, Except.bind, opRead_inRange hs, opWrite_inRange hd,
        storeOperand_mask]

/-! ## add, sub, cmp -/

/-- R130: the state an ALU operation leaves when its operands are in range. -/
def aluState (op : AluOp) (dst : Place) (src : Source) (s : State) : State :=
  let w := opWidth dst
  let res := aluResult op w (operandValue dst.operand s &&& mask w) (operandValue src.operand s &&& mask w)
  (if op.writesBack then storeOperand dst.operand res s else s).setFlags w res

/-- R130: all an ALU operation can do. -/
theorem alu_eq (op : AluOp) (dst : Place) (src : Source) (s : State) :
    alu op dst src s =
      if outOfRange dst s || sourceOutOfRange src s then .next (s.raiseFault .memOutOfRange)
      else .next (aluState op dst src s) := by
  unfold alu aluEffect aluState
  cases hd : outOfRange dst s with
  | true => simp [checkPlace, hd, bind, Except.bind]
  | false =>
    cases hs : sourceOutOfRange src s with
    | true => simp [checkPlace, hd, checkMem_eq, hs, bind, Except.bind]
    | false =>
      cases op <;>
        simp [checkPlace, hd, checkMem_eq, hs, bind, Except.bind, opRead_inRange hs, readPlace_inRange hd,
          opWrite_inRange hd, AluOp.writesBack]

/-! ## jne -/

/-- R151: all a `jne` can do. -/
theorem execJne_cases (d : Byte) (s : State) :
    (s.zf = true ∧ execJne d s = .next s) ∨
    (s.zf = false ∧ 0 ≤ branchTarget s d ∧ branchTarget s d ≤ 65535 ∧
      execJne d s = .next { s with ip := BitVec.ofInt 16 (branchTarget s d) }) ∨
    (s.zf = false ∧ ¬ (0 ≤ branchTarget s d ∧ branchTarget s d ≤ 65535) ∧
      execJne d s = .next { s with ip := BitVec.ofInt 16 (branchTarget s d), status := .halted,
                                   haltReason := .truncatedInstruction }) := by
  unfold execJne
  cases hz : s.zf with
  | true => exact .inl ⟨rfl, by simp⟩
  | false =>
    by_cases ht : 0 ≤ branchTarget s d ∧ branchTarget s d ≤ 65535
    · exact .inr (.inl ⟨rfl, ht.1, ht.2, by simp [hz, jumpTo, ht]⟩)
    · exact .inr (.inr ⟨rfl, ht, by simp [hz, jumpTo, ht, State.raiseHalt]⟩)

/-! ## The dispatch -/

/-- The ALU operation of an instruction. -/
def aluOpOf (m : Mnemonic) : AluOp := if m = .add then .add else if m = .sub then .sub else .cmp

/-- R105: every instruction is a `mov`, an ALU operation, a `jne`, or has no effect. -/
theorem exec_cases (i : Instr) (s : State) :
    (∃ dst src, i.dataOperands = some (dst, src) ∧ i.mnemonic = .mov ∧ exec i s = mov dst src s) ∨
    (∃ dst src, i.dataOperands = some (dst, src) ∧ i.mnemonic.isAlu = true ∧
      exec i s = alu (aluOpOf i.mnemonic) dst src s) ∨
    (∃ d, i = .jne d ∧ exec i s = execJne d s) ∨
    (i.mnemonic.isBranch = true ∧ i.mnemonic ≠ .jne ∧ i.dataOperands = none ∧ exec i s = .next s) := by
  cases i <;>
    first
    | exact .inl ⟨_, _, rfl, rfl, rfl⟩
    | exact .inr (.inl ⟨_, _, rfl, rfl, rfl⟩)
    | exact .inr (.inr (.inl ⟨_, rfl, rfl⟩))
    | exact .inr (.inr (.inr ⟨rfl, by simp [Instr.mnemonic], rfl, rfl⟩))

/-- The operands of the output record of a data instruction. -/
theorem operands_of_data {i : Instr} {dst : Place} {src : Source} (h : i.dataOperands = some (dst, src)) :
    i.dst = dst.operand ∧ i.src = src.operand := by
  simp [Instr.dst, Instr.src, h]

/-- R109: a data instruction faults exactly when one of its operands is at the top. -/
theorem raisesMemFault_of_data {i : Instr} {dst : Place} {src : Source} (h : i.dataOperands = some (dst, src))
    (s : State) : raisesMemFault i s = (outOfRange dst s || sourceOutOfRange src s) := by
  rw [raisesMemFault, (operands_of_data h).1, (operands_of_data h).2, outOfRange_eq]
  rfl

end Sys2Proof.Machine
end

