-- ==== Sys2Proof/Laws/PerInstr.lean ====
section
/-! SUPPORT. Facts about every instruction as syntax, one lemma per constructor. The family `EncodedLength`: the
encoding of a well-formed instruction has the length of R82, between 2 and 6 bytes (R60). -/

namespace Sys2Proof.Laws

/-! ## The lengths of the parts -/

theorem trailing_length (rm : RmField) : rm.trailing.length = rm.dispBytes := by cases rm <;> rfl

theorem dispBytes_le (rm : RmField) : rm.dispBytes ≤ 2 := by cases rm <;> simp [RmField.dispBytes]

theorem imm_length_ofWidth {imm : ImmField} {w : Width} (h : imm.fitsWidth w = true) :
    imm.encode.length = immBytesOfWidth w := by
  have := isTwoBytes_of_fitsWidth h
  cases imm <;> cases w <;> simp_all [ImmField.isTwoBytes, ImmField.encode, immBytesOfWidth, wordBytes]

theorem imm_length_mov {imm : ImmField} {w : Width} (h : imm.fitsWidth w = true) :
    imm.encode.length = immBytes true false w := by
  have := isTwoBytes_of_fitsWidth h
  cases imm <;> cases w <;> simp_all [ImmField.isTwoBytes, ImmField.encode, immBytes, immBytesOfWidth, wordBytes]

theorem imm_length_alu {imm : ImmField} {s : Bool} {w : Width} (h : imm.fitsSignExtend s w = true) :
    imm.encode.length = immBytes false s w := by
  have := isTwoBytes_of_fitsSignExtend h
  cases imm <;> cases w <;> cases s <;> simp_all [ImmField.isTwoBytes, ImmField.encode, immBytes, wordBytes]

theorem immBytesOfWidth_bounds (w : Width) : 1 ≤ immBytesOfWidth w ∧ immBytesOfWidth w ≤ 2 := by cases w <;> decide

theorem immBytes_bounds (m s : Bool) (w : Width) : 1 ≤ immBytes m s w ∧ immBytes m s w ≤ 2 := by
  cases m <;> cases s <;> cases w <;> decide

/-- R82, R60. -/
def EncodedLength.Statement (i : Instr) : Prop :=
  i.wellFormed = true → (encode i).length = i.length ∧ 2 ≤ i.length ∧ i.length ≤ Config.maxInstrBytes

theorem length_rmReg (op : Byte) (d : Bool) (w : Width) (reg : BitVec 3) (rm : RmField) :
    (encodeRmReg op d w reg rm).length = 2 + rm.dispBytes ∧ 2 ≤ 2 + rm.dispBytes ∧
      2 + rm.dispBytes ≤ Config.maxInstrBytes := by
  have := dispBytes_le rm
  refine ⟨?_, by omega, by simp only [Config.maxInstrBytes]; omega⟩
  simp only [encodeRmReg, RmField.encode, List.length_cons, trailing_length]
  omega

theorem length_immRm (b0 : Byte) (mid : BitVec 3) (rm : RmField) {imm : ImmField} {n : Nat}
    (hi : imm.encode.length = n) (hb : 1 ≤ n ∧ n ≤ 2) :
    (b0 :: rm.encode mid ++ imm.encode).length = 2 + rm.dispBytes + n ∧ 2 ≤ 2 + rm.dispBytes + n ∧
      2 + rm.dispBytes + n ≤ Config.maxInstrBytes := by
  have := dispBytes_le rm
  refine ⟨?_, by omega, by simp only [Config.maxInstrBytes]; omega⟩
  simp only [RmField.encode, List.length_append, List.length_cons, trailing_length, hi]
  omega

theorem length_imm (b0 : Byte) {imm : ImmField} {w : Width} (h : imm.fitsWidth w = true) :
    (b0 :: imm.encode).length = 1 + immBytesOfWidth w ∧ 2 ≤ 1 + immBytesOfWidth w ∧
      1 + immBytesOfWidth w ≤ Config.maxInstrBytes := by
  have hb := immBytesOfWidth_bounds w
  refine ⟨?_, by omega, by simp only [Config.maxInstrBytes]; omega⟩
  simp only [List.length_cons, imm_length_ofWidth h]
  omega

theorem length_branch (b0 d : Byte) : [b0, d].length = 2 ∧ 2 ≤ 2 ∧ 2 ≤ Config.maxInstrBytes :=
  ⟨rfl, Nat.le_refl 2, by decide⟩

/-! ## One lemma per constructor -/

theorem EncodedLength.movRmReg (d : Bool) (w : Width) (reg : BitVec 3) (rm : RmField) :
    EncodedLength.Statement (.movRmReg d w reg rm) := by
  intro h
  exact length_rmReg _ _ _ _ _

theorem EncodedLength.movImmRm (w : Width) (ign : BitVec 3) (rm : RmField) (imm : ImmField) :
    EncodedLength.Statement (.movImmRm w ign rm imm) := by
  intro h
  simp only [Instr.wellFormed, Bool.and_eq_true] at h
  exact length_immRm _ _ _ (imm_length_mov h.2) (immBytes_bounds _ _ _)

theorem EncodedLength.movImmReg (w : Width) (reg : BitVec 3) (imm : ImmField) :
    EncodedLength.Statement (.movImmReg w reg imm) := by
  intro h
  exact length_imm _ h

theorem EncodedLength.addRmReg (d : Bool) (w : Width) (reg : BitVec 3) (rm : RmField) :
    EncodedLength.Statement (.addRmReg d w reg rm) := by
  intro h
  exact length_rmReg _ _ _ _ _

theorem EncodedLength.subRmReg (d : Bool) (w : Width) (reg : BitVec 3) (rm : RmField) :
    EncodedLength.Statement (.subRmReg d w reg rm) := by
  intro h
  exact length_rmReg _ _ _ _ _

theorem EncodedLength.cmpRmReg (d : Bool) (w : Width) (reg : BitVec 3) (rm : RmField) :
    EncodedLength.Statement (.cmpRmReg d w reg rm) := by
  intro h
  exact length_rmReg _ _ _ _ _

theorem EncodedLength.addImmRm (b : Bool) (w : Width) (rm : RmField) (imm : ImmField) :
    EncodedLength.Statement (.addImmRm b w rm imm) := by
  intro h
  simp only [Instr.wellFormed, Bool.and_eq_true] at h
  exact length_immRm _ _ _ (imm_length_alu h.2) (immBytes_bounds _ _ _)

theorem EncodedLength.subImmRm (b : Bool) (w : Width) (rm : RmField) (imm : ImmField) :
    EncodedLength.Statement (.subImmRm b w rm imm) := by
  intro h
  simp only [Instr.wellFormed, Bool.and_eq_true] at h
  exact length_immRm _ _ _ (imm_length_alu h.2) (immBytes_bounds _ _ _)

theorem EncodedLength.cmpImmRm (b : Bool) (w : Width) (rm : RmField) (imm : ImmField) :
    EncodedLength.Statement (.cmpImmRm b w rm imm) := by
  intro h
  simp only [Instr.wellFormed, Bool.and_eq_true] at h
  exact length_immRm _ _ _ (imm_length_alu h.2) (immBytes_bounds _ _ _)

theorem EncodedLength.addImmAcc (w : Width) (imm : ImmField) :
    EncodedLength.Statement (.addImmAcc w imm) := by
  intro h
  exact length_imm _ h

theorem EncodedLength.subImmAcc (w : Width) (imm : ImmField) :
    EncodedLength.Statement (.subImmAcc w imm) := by
  intro h
  exact length_imm _ h

theorem EncodedLength.cmpImmAcc (w : Width) (imm : ImmField) :
    EncodedLength.Statement (.cmpImmAcc w imm) := by
  intro h
  exact length_imm _ h

theorem EncodedLength.jo (disp : Byte) :
    EncodedLength.Statement (.jo disp) := by
  intro h
  exact length_branch _ disp

theorem EncodedLength.jno (disp : Byte) :
    EncodedLength.Statement (.jno disp) := by
  intro h
  exact length_branch _ disp

theorem EncodedLength.jb (disp : Byte) :
    EncodedLength.Statement (.jb disp) := by
  intro h
  exact length_branch _ disp

theorem EncodedLength.jnb (disp : Byte) :
    EncodedLength.Statement (.jnb disp) := by
  intro h
  exact length_branch _ disp

theorem EncodedLength.je (disp : Byte) :
    EncodedLength.Statement (.je disp) := by
  intro h
  exact length_branch _ disp

theorem EncodedLength.jne (disp : Byte) :
    EncodedLength.Statement (.jne disp) := by
  intro h
  exact length_branch _ disp

theorem EncodedLength.jbe (disp : Byte) :
    EncodedLength.Statement (.jbe disp) := by
  intro h
  exact length_branch _ disp

theorem EncodedLength.jnbe (disp : Byte) :
    EncodedLength.Statement (.jnbe disp) := by
  intro h
  exact length_branch _ disp

theorem EncodedLength.js (disp : Byte) :
    EncodedLength.Statement (.js disp) := by
  intro h
  exact length_branch _ disp

theorem EncodedLength.jns (disp : Byte) :
    EncodedLength.Statement (.jns disp) := by
  intro h
  exact length_branch _ disp

theorem EncodedLength.jp (disp : Byte) :
    EncodedLength.Statement (.jp disp) := by
  intro h
  exact length_branch _ disp

theorem EncodedLength.jnp (disp : Byte) :
    EncodedLength.Statement (.jnp disp) := by
  intro h
  exact length_branch _ disp

theorem EncodedLength.jl (disp : Byte) :
    EncodedLength.Statement (.jl disp) := by
  intro h
  exact length_branch _ disp

theorem EncodedLength.jnl (disp : Byte) :
    EncodedLength.Statement (.jnl disp) := by
  intro h
  exact length_branch _ disp

theorem EncodedLength.jle (disp : Byte) :
    EncodedLength.Statement (.jle disp) := by
  intro h
  exact length_branch _ disp

theorem EncodedLength.jnle (disp : Byte) :
    EncodedLength.Statement (.jnle disp) := by
  intro h
  exact length_branch _ disp

theorem EncodedLength.loopnz (disp : Byte) :
    EncodedLength.Statement (.loopnz disp) := by
  intro h
  exact length_branch _ disp

theorem EncodedLength.loopz (disp : Byte) :
    EncodedLength.Statement (.loopz disp) := by
  intro h
  exact length_branch _ disp

theorem EncodedLength.loop (disp : Byte) :
    EncodedLength.Statement (.loop disp) := by
  intro h
  exact length_branch _ disp

theorem EncodedLength.jcxz (disp : Byte) :
    EncodedLength.Statement (.jcxz disp) := by
  intro h
  exact length_branch _ disp

end Sys2Proof.Laws
end

