-- ==== Sys2Proof/Laws/Step.lean ====
section
/-! SUPPORT. All a fetch and a step can do, each said once. -/

namespace Sys2Proof.Machine

/-- R101: everything the beginning of a step can find. The bytes of a found instruction are the ones it was decoded
from, and they lie inside the image. -/
theorem fetch_cases (s : State) :
    (s.status ≠ .running ∧ fetch s = .terminal) ∨
    (s.status = .running ∧ Config.imemMax < s.imem.length ∧ fetch s = .imageTooLong) ∨
    (s.status = .running ∧ s.imem.length ≤ Config.imemMax ∧ s.ip.toNat = s.imem.length ∧
      fetch s = .stop .endOfProgram) ∨
    (s.status = .running ∧ s.imem.length ≤ Config.imemMax ∧ s.ip.toNat ≠ s.imem.length ∧
      decode s.bytesAtIp = .unrecognized ∧ fetch s = .stop .unrecognizedOpcode) ∨
    (s.status = .running ∧ s.imem.length ≤ Config.imemMax ∧ s.ip.toNat ≠ s.imem.length ∧
      decode s.bytesAtIp = .truncated ∧ fetch s = .stop .truncatedInstruction) ∨
    (s.status = .running ∧ s.imem.length ≤ Config.imemMax ∧
      ∃ i bytes rest, decode s.bytesAtIp = .ok i rest ∧ s.bytesAtIp = bytes ++ rest ∧ 2 ≤ bytes.length ∧
        s.ip.toNat + bytes.length ≤ s.imem.length ∧ fetch s = .run i bytes) := by
  cases hs : s.status with
  | halted => exact .inl ⟨by simp, by simp [fetch, hs]⟩
  | faulted => exact .inl ⟨by simp, by simp [fetch, hs]⟩
  | running =>
    by_cases hl : Config.imemMax < s.imem.length
    · exact .inr (.inl ⟨rfl, hl, by simp [fetch, hs, hl]⟩)
    have hle : s.imem.length ≤ Config.imemMax := by omega
    by_cases he : s.ip.toNat = s.imem.length
    · exact .inr (.inr (.inl ⟨rfl, hle, he, by simp [fetch, hs, he, hle]⟩))
    cases hd : decode s.bytesAtIp with
    | unrecognized =>
      exact .inr (.inr (.inr (.inl ⟨rfl, hle, he, rfl, by simp [fetch, hs, hl, he, hd]⟩)))
    | truncated =>
      exact .inr (.inr (.inr (.inr (.inl ⟨rfl, hle, he, rfl, by simp [fetch, hs, hl, he, hd]⟩))))
    | ok i rest =>
      obtain ⟨used, hu, h2⟩ := decode_suffix hd
      have hlen : (s.imem.drop s.ip.toNat).length = used.length + rest.length := by
        rw [← List.length_append, ← hu]; rfl
      rw [List.length_drop] at hlen
      refine .inr (.inr (.inr (.inr (.inr ⟨rfl, hle, i, used, rest, rfl, hu, h2, by omega, ?_⟩))))
      have htake : s.bytesAtIp.take (s.bytesAtIp.length - rest.length) = used := by
        rw [hu, List.length_append, Nat.add_sub_cancel, List.take_left]
      simp only [fetch, hs, hl, he, hd, htake, if_false]

/-- R104: an instruction found at `ip` ends inside the image, so the advance does not wrap. -/
theorem advance_toNat {s : State} {n : Nat} (hl : s.imem.length ≤ Config.imemMax)
    (h : s.ip.toNat + n ≤ s.imem.length) : (s.advance n).ip.toNat = s.ip.toNat + n := by
  have hmax : Config.imemMax = 65535 := rfl
  simp only [advance_ip, BitVec.toNat_add, BitVec.toNat_ofNat]
  omega

/-- R101: everything a step that answers a next state can have done. -/
theorem step_next_cases {s t : State} (h : step s = .next t) :
    (s.status ≠ .running ∧ t = s) ∨
    (s.status = .running ∧ s.imem.length ≤ Config.imemMax ∧
      ((s.ip.toNat = s.imem.length ∧ t = s.raiseHalt .endOfProgram) ∨
       (s.ip.toNat ≠ s.imem.length ∧ decode s.bytesAtIp = .unrecognized ∧ t = s.raiseHalt .unrecognizedOpcode) ∨
       (s.ip.toNat ≠ s.imem.length ∧ decode s.bytesAtIp = .truncated ∧ t = s.raiseHalt .truncatedInstruction) ∨
       (∃ i bytes rest, decode s.bytesAtIp = .ok i rest ∧ s.bytesAtIp = bytes ++ rest ∧ 2 ≤ bytes.length ∧
          s.ip.toNat + bytes.length ≤ s.imem.length ∧ exec i (s.advance bytes.length) = .next t))) := by
  unfold step at h
  rcases fetch_cases s with ⟨a, f⟩ | ⟨a, b, f⟩ | ⟨a, b, c, f⟩ | ⟨a, b, c, d, f⟩ | ⟨a, b, c, d, f⟩ |
    ⟨a, b, i, bytes, rest, hd, hb, h2, hle, f⟩
  · rw [f] at h; cases h; exact .inl ⟨a, rfl⟩
  · rw [f] at h; cases h
  · rw [f] at h; cases h; exact .inr ⟨a, b, .inl ⟨c, rfl⟩⟩
  · rw [f] at h; cases h; exact .inr ⟨a, b, .inr (.inl ⟨c, d, rfl⟩)⟩
  · rw [f] at h; cases h; exact .inr ⟨a, b, .inr (.inr (.inl ⟨c, d, rfl⟩))⟩
  · rw [f] at h; exact .inr ⟨a, b, .inr (.inr (.inr ⟨i, bytes, rest, hd, hb, h2, hle, h⟩))⟩

/-! ## Runs -/

@[simp] theorem runSteps_zero (s : State) : runSteps 0 s = .next s := rfl

/-- A run of any machine whose first step answers a next state is the rest of the run from it. -/
theorem core_run_succ (M : Host.Core) {s t : M.State} (h : M.step s = .next t) (k : Nat) :
    M.run (k + 1) s = M.run k t := by
  simp only [Host.Core.run, h]

/-- The same of this machine. -/
theorem runSteps_succ {s t : State} (h : step s = .next t) (k : Nat) : runSteps (k + 1) s = runSteps k t :=
  core_run_succ Sys2Proof.core h k

end Sys2Proof.Machine
end

