-- ==== Sys2Proof/Tests/Slice0.lean ====
section
/-! SUPPORT. Tests: the smoke test of WellFormed, the decoding of a word of every constructor, single steps on small
states, and a witness for the hypotheses of every statement of Certificates/Slice0/Obligations.lean. Every expected
result is the spec's (95_test_vectors.md, the id stands in the docstring) or worked by hand from the rule named. -/

namespace Sys2Proof.Tests

open Sys2Proof.Machine

/-! ## Helpers -/

/-- Eight registers of zero. -/
def zeros : RegFile := State.reset.regs

/-- The reset state with these registers, flags and memory, and with `bytes` as the whole image. -/
def start (bytes : List Byte) (regs : RegFile := zeros) (zf sf : Bool := false) (dmem : Memory := []) : State :=
  { State.boot bytes with regs := regs, zf := zf, sf := sf, dmem := dmem }

/-- An image whose bytes before `offset` are zeros. -/
def imageAt (offset : Nat) (bytes : List Byte) : List Byte := List.replicate offset 0x00#8 ++ bytes

/-- The reset state with `ip` at an offset and the bytes there ("at offset", 95_test_vectors.md section 7.5). -/
def startAt (offset : Nat) (bytes : List Byte) (zf sf : Bool := false) (regs : RegFile := zeros) : State :=
  { start (imageAt offset bytes) regs zf sf with ip := BitVec.ofNat 16 offset }

/-- An outcome is the next state `t`. -/
def nextIs (o : Host.Outcome State Fault Refusal) (t : State) : Bool :=
  match o with
  | .next u    => u == t
  | .fault _   => false
  | .refused _ => false

/-- What the spec's rows of section 7 say of a step: the registers, the memory, `ip`, the flags and the run state after
it, everything else as before but for `last_write`, which the rows do not show. -/
def stepGives (s : State) (regs : RegFile) (dmem : Memory) (ip : Word) (zf sf : Bool)
    (status : RunStatus := .running) (reason : HaltReason := .none) : Bool :=
  match step s with
  | .next t    =>
    t.regs == regs && t.dmem == dmem && t.ip == ip && t.zf == zf && t.sf == sf && t.status == status &&
      t.haltReason == reason && t.imem == s.imem
  | .fault _   => false
  | .refused _ => false

/-- The record the decoder's output gives: mnemonic, destination, source, length. -/
def recordIs (bytes : List Byte) (m : Mnemonic) (dst src : Operand) : Bool :=
  match decode bytes with
  | .ok i rest    => i.mnemonic == m && i.dst == dst && i.src == src && rest == [] && i.length == bytes.length
  | .unrecognized => false
  | .truncated    => false

/-! ## WellFormed: each check refuses an ill-formed term -/

/-- R76: `mod = 00` with `rm = 110` is the direct address, not an operand without displacement. -/
theorem test_wf_noDisp_110 : (Instr.movRmReg true .word 0#3 (.noDisp 0b110#3)).wellFormed = false := by decide

/-- The same check in the shape with an immediate. -/
theorem test_wf_noDisp_110_imm : (Instr.addImmRm false .byte (.noDisp 0b110#3) (.imm8 0x01#8)).wellFormed = false := by
  decide

/-- R71: `C7` takes two immediate bytes. -/
theorem test_wf_movImmRm_word_imm8 :
    (Instr.movImmRm .word 0#3 (.register 3#3) (.imm8 0x34#8)).wellFormed = false := by decide

/-- R73, R74: a byte operation takes one immediate byte. -/
theorem test_wf_byte_imm16 :
    (Instr.movImmReg .byte 1#3 (.imm16 0x000C#16)).wellFormed = false ∧
    (Instr.cmpImmAcc .byte (.imm16 0x0000#16)).wellFormed = false := by decide

/-- R71: `83` takes one immediate byte, `81` two. -/
theorem test_wf_sign_extend :
    (Instr.subImmRm true .word (.register 1#3) (.imm16 0x0001#16)).wellFormed = false ∧
    (Instr.subImmRm false .word (.register 1#3) (.imm8 0x01#8)).wellFormed = false ∧
    (Instr.subImmRm true .byte (.register 1#3) (.imm16 0x0001#16)).wellFormed = false := by decide

/-! ## Decoding: a word of every constructor -/

/-- DV3: `8B 5B 0A`. -/
theorem test_decode_movRmReg :
    decode [0x8B#8, 0x5B#8, 0x0A#8] = .ok (.movRmReg true .word 3#3 (.disp8 3#3 0x0A#8)) [] := by decide

/-- DV6: `89 16 E8 03`. -/
theorem test_decode_movRmReg_direct :
    decode [0x89#8, 0x16#8, 0xE8#8, 0x03#8] = .ok (.movRmReg false .word 2#3 (.direct 0x03E8#16)) [] := by decide

/-- DV5: `8A 46 00`. -/
theorem test_decode_movRmReg_bp :
    decode [0x8A#8, 0x46#8, 0x00#8] = .ok (.movRmReg true .byte 0#3 (.disp8 6#3 0x00#8)) [] := by decide

/-- DV7: `8B 87 34 12`. -/
theorem test_decode_movRmReg_disp16 :
    decode [0x8B#8, 0x87#8, 0x34#8, 0x12#8] = .ok (.movRmReg true .word 0#3 (.disp16 7#3 0x1234#16)) [] := by decide

/-- DV17: `C7 06 E8 03 34 12`. -/
theorem test_decode_movImmRm :
    decode [0xC7#8, 0x06#8, 0xE8#8, 0x03#8, 0x34#8, 0x12#8] =
      .ok (.movImmRm .word 0#3 (.direct 0x03E8#16) (.imm16 0x1234#16)) [] := by decide

/-- DV21: `C7 CB 34 12`. -/
theorem test_decode_movImmRm_ignored :
    decode [0xC7#8, 0xCB#8, 0x34#8, 0x12#8] =
      .ok (.movImmRm .word 1#3 (.register 3#3) (.imm16 0x1234#16)) [] := by decide

/-- DV25: `B4 80`. -/
theorem test_decode_movImmReg :
    decode [0xB4#8, 0x80#8] = .ok (.movImmReg .byte 4#3 (.imm8 0x80#8)) [] := by decide

/-- DV24: `BF FE FF`. -/
theorem test_decode_movImmReg_word :
    decode [0xBF#8, 0xFE#8, 0xFF#8] = .ok (.movImmReg .word 7#3 (.imm16 0xFFFE#16)) [] := by decide

/-- DV27: `03 18`. -/
theorem test_decode_addRmReg :
    decode [0x03#8, 0x18#8] = .ok (.addRmReg true .word 3#3 (.noDisp 0#3)) [] := by decide

/-- DV30: `2B 04`. -/
theorem test_decode_subRmReg :
    decode [0x2B#8, 0x04#8] = .ok (.subRmReg true .word 0#3 (.noDisp 4#3)) [] := by decide

/-- DV31: `38 C4`. -/
theorem test_decode_cmpRmReg :
    decode [0x38#8, 0xC4#8] = .ok (.cmpRmReg false .byte 0#3 (.register 4#3)) [] := by decide

/-- DV43: `83 06 E8 03 80`. -/
theorem test_decode_addImmRm :
    decode [0x83#8, 0x06#8, 0xE8#8, 0x03#8, 0x80#8] =
      .ok (.addImmRm true .word (.direct 0x03E8#16) (.imm8 0x80#8)) [] := by decide

/-- DV38: `81 2E 00 10 01 00`. -/
theorem test_decode_subImmRm :
    decode [0x81#8, 0x2E#8, 0x00#8, 0x10#8, 0x01#8, 0x00#8] =
      .ok (.subImmRm false .word (.direct 0x1000#16) (.imm16 0x0001#16)) [] := by decide

/-- DV44: `83 7E FE 7F`. -/
theorem test_decode_cmpImmRm :
    decode [0x83#8, 0x7E#8, 0xFE#8, 0x7F#8] =
      .ok (.cmpImmRm true .word (.disp8 6#3 0xFE#8) (.imm8 0x7F#8)) [] := by decide

/-- DV39: `82 C3 05`. -/
theorem test_decode_addImmRm_82 :
    decode [0x82#8, 0xC3#8, 0x05#8] = .ok (.addImmRm true .byte (.register 3#3) (.imm8 0x05#8)) [] := by decide

/-- DV46: `05 02 00`. -/
theorem test_decode_addImmAcc :
    decode [0x05#8, 0x02#8, 0x00#8] = .ok (.addImmAcc .word (.imm16 0x0002#16)) [] := by decide

/-- DV47: `2C 05`. -/
theorem test_decode_subImmAcc :
    decode [0x2C#8, 0x05#8] = .ok (.subImmAcc .byte (.imm8 0x05#8)) [] := by decide

/-- DV49: `3C FF`. -/
theorem test_decode_cmpImmAcc :
    decode [0x3C#8, 0xFF#8] = .ok (.cmpImmAcc .byte (.imm8 0xFF#8)) [] := by decide

/-- DV55: `70 80`. -/
theorem test_decode_jo :
    decode [0x70#8, 0x80#8] = .ok (.jo 0x80#8) [] := by decide

/-- R64 row 14: `71 05`. -/
theorem test_decode_jno :
    decode [0x71#8, 0x05#8] = .ok (.jno 0x05#8) [] := by decide

/-- R64 row 15: `72 05`. -/
theorem test_decode_jb :
    decode [0x72#8, 0x05#8] = .ok (.jb 0x05#8) [] := by decide

/-- R64 row 16: `73 05`. -/
theorem test_decode_jnb :
    decode [0x73#8, 0x05#8] = .ok (.jnb 0x05#8) [] := by decide

/-- DV52: `74 05`. -/
theorem test_decode_je :
    decode [0x74#8, 0x05#8] = .ok (.je 0x05#8) [] := by decide

/-- DV51: `75 FE`. -/
theorem test_decode_jne :
    decode [0x75#8, 0xFE#8] = .ok (.jne 0xFE#8) [] := by decide

/-- R64 row 19: `76 05`. -/
theorem test_decode_jbe :
    decode [0x76#8, 0x05#8] = .ok (.jbe 0x05#8) [] := by decide

/-- BV19: `77 05`. -/
theorem test_decode_jnbe :
    decode [0x77#8, 0x05#8] = .ok (.jnbe 0x05#8) [] := by decide

/-- BV11: `78 05`. -/
theorem test_decode_js :
    decode [0x78#8, 0x05#8] = .ok (.js 0x05#8) [] := by decide

/-- R64 row 22: `79 05`. -/
theorem test_decode_jns :
    decode [0x79#8, 0x05#8] = .ok (.jns 0x05#8) [] := by decide

/-- TV19: `7A 05`. -/
theorem test_decode_jp :
    decode [0x7A#8, 0x05#8] = .ok (.jp 0x05#8) [] := by decide

/-- R64 row 24: `7B 05`. -/
theorem test_decode_jnp :
    decode [0x7B#8, 0x05#8] = .ok (.jnp 0x05#8) [] := by decide

/-- BV18: `7C 05`. -/
theorem test_decode_jl :
    decode [0x7C#8, 0x05#8] = .ok (.jl 0x05#8) [] := by decide

/-- R64 row 26: `7D 05`. -/
theorem test_decode_jnl :
    decode [0x7D#8, 0x05#8] = .ok (.jnl 0x05#8) [] := by decide

/-- R64 row 27: `7E 05`. -/
theorem test_decode_jle :
    decode [0x7E#8, 0x05#8] = .ok (.jle 0x05#8) [] := by decide

/-- DV56: `7F 7F`. -/
theorem test_decode_jnle :
    decode [0x7F#8, 0x7F#8] = .ok (.jnle 0x7F#8) [] := by decide

/-- DV57: `E0 FC`. -/
theorem test_decode_loopnz :
    decode [0xE0#8, 0xFC#8] = .ok (.loopnz 0xFC#8) [] := by decide

/-- DV58: `E1 FC`. -/
theorem test_decode_loopz :
    decode [0xE1#8, 0xFC#8] = .ok (.loopz 0xFC#8) [] := by decide

/-- DV53: `E2 F0`. -/
theorem test_decode_loop :
    decode [0xE2#8, 0xF0#8] = .ok (.loop 0xF0#8) [] := by decide

/-- DV54: `E3 00`. -/
theorem test_decode_jcxz :
    decode [0xE3#8, 0x00#8] = .ok (.jcxz 0x00#8) [] := by decide

/-! ## Decoding: what the output record holds, and failures -/

/-- DV8: `8A 40 FF`, the 8-bit displacement is stored sign-extended. -/
theorem test_record_DV8 :
    recordIs [0x8A#8, 0x40#8, 0xFF#8]
      .mov (.register ⟨0#3, .byte⟩) (.memory ⟨some .bx, some .si, 0xFFFF#16, .byte⟩) = true := by decide

/-- DV14: `8B 03`, two base registers. -/
theorem test_record_DV14 :
    recordIs [0x8B#8, 0x03#8]
      .mov (.register ⟨0#3, .word⟩) (.memory ⟨some .bp, some .di, 0x0000#16, .word⟩) = true := by decide

/-- DV19: `C6 46 80 7F`, displacement before immediate. -/
theorem test_record_DV19 :
    recordIs [0xC6#8, 0x46#8, 0x80#8, 0x7F#8]
      .mov (.memory ⟨some .bp, none, 0xFF80#16, .byte⟩) (.immediate 0x007F#16) = true := by decide

/-- DV42: `83 F8 FF`, the immediate is stored sign-extended. -/
theorem test_record_DV42 :
    recordIs [0x83#8, 0xF8#8, 0xFF#8] .cmp (.register ⟨0#3, .word⟩) (.immediate 0xFFFF#16) = true := by decide

/-- DV49: `3C FF`, a byte immediate is stored zero-extended. -/
theorem test_record_DV49 :
    recordIs [0x3C#8, 0xFF#8] .cmp (.register ⟨0#3, .byte⟩) (.immediate 0x00FF#16) = true := by decide

/-- DV51: `75 FE`, a branch holds its displacement zero-extended. -/
theorem test_record_DV51 :
    recordIs [0x75#8, 0xFE#8] .jne (.immediate 0x00FE#16) (.none) = true := by decide

/-- DV10 to DV15: the base registers of the r/m codes 4, 5, 1, 2, 3 and 7. -/
theorem test_base_registers :
    basePair 4#3 = (some .si, none) ∧ basePair 5#3 = (some .di, none) ∧ basePair 1#3 = (some .bx, some .di) ∧
    basePair 2#3 = (some .bp, some .si) ∧ basePair 3#3 = (some .bp, some .di) ∧ basePair 7#3 = (some .bx, none) := by
  decide

/-- DV59 to DV72. -/
theorem test_decode_unrecognized :
    decode [0x80#8, 0xCB#8, 0x05#8] = .unrecognized ∧
    decode [0x80#8, 0xD3#8, 0x05#8] = .unrecognized ∧
    decode [0x83#8, 0xE0#8, 0x01#8] = .unrecognized ∧
    decode [0x80#8, 0xF3#8, 0x05#8] = .unrecognized ∧
    decode [0x81#8, 0xDB#8, 0x01#8, 0x00#8] = .unrecognized ∧
    decode [0xF1#8] = .unrecognized ∧
    decode [0xF4#8] = .unrecognized ∧
    decode [0x90#8] = .unrecognized ∧
    decode [0x0F#8] = .unrecognized ∧
    decode [0x8C#8, 0xD8#8] = .unrecognized ∧
    decode [0xC5#8, 0x00#8] = .unrecognized ∧
    decode [0x84#8, 0xC0#8] = .unrecognized ∧
    decode [0x06#8] = .unrecognized ∧
    decode [0xEB#8, 0x05#8] = .unrecognized := by decide

/-- DV73 to DV81. -/
theorem test_decode_truncated :
    decode [0x8B#8] = .truncated ∧
    decode [0xB8#8, 0x05#8] = .truncated ∧
    decode [0xC7#8, 0x06#8, 0xE8#8, 0x03#8, 0x34#8] = .truncated ∧
    decode [0x83#8, 0xC0#8] = .truncated ∧
    decode [0x8B#8, 0x46#8] = .truncated ∧
    decode [0x8B#8, 0x86#8, 0x01#8] = .truncated ∧
    decode [0x75#8] = .truncated ∧
    decode [0x05#8, 0x02#8] = .truncated ∧
    decode [0x80#8] = .truncated := by decide

/-- TV2, TV10, TV15: the matcher, `C6` whatever its middle field, no row for `82 C8`, `02` in row 4. -/
theorem test_find_row :
    (findRow 0xC6#8 0x38#8).map (·.mnemonic) = some .mov ∧ (findRow 0x82#8 0xC8#8).isNone = true ∧
    (findRow 0x02#8 0x00#8).map (·.mnemonic) = some .add := by decide

/-- FV1, FV5, FV9, FV18: the bit-field extractor. -/
theorem test_bit_fields :
    fieldMod.read 0x5B#8 = 1#8 ∧ fieldReg.read 0xE9#8 = 5#8 ∧ fieldW.read 0x8B#8 = 1#8 ∧
    (BitField.mk 0xFE#8).read 0xC7#8 = 0x63#8 := by decide

/-- The host's numbering: `8B 5B 0A` with the first byte lowest. -/
theorem test_table_word :
    decodeTableWord 24 0x0A5B8B = some (.movRmReg true .word 3#3 (.disp8 3#3 0x0A#8)) ∧
    decodeTableWord 16 0x00F1 = none := by decide

/-! ## Registers, addresses and memory -/

/-- RV4, RV7, RV11: byte index 4 is `ah`, byte index 7 is `bh`, word index 4 is `sp`. -/
theorem test_register_reads :
    regRead ⟨4#3, .byte⟩ { zeros with ax := 0x12FF#16 } = 0x0012#16 ∧
    regRead ⟨7#3, .byte⟩ { zeros with bx := 0xA55A#16 } = 0x00A5#16 ∧
    regRead ⟨4#3, .word⟩ { zeros with sp := 0x8000#16 } = 0x8000#16 := by decide

/-- RV5, RV6, RV8, RV9: a byte write keeps the other half, and uses the low byte of the value. -/
theorem test_register_writes :
    regWrite ⟨0#3, .byte⟩ 0x0034#16 { zeros with ax := 0x12FF#16 } = { zeros with ax := 0x1234#16 } ∧
    regWrite ⟨4#3, .byte⟩ 0x00AB#16 { zeros with ax := 0x12FF#16 } = { zeros with ax := 0xABFF#16 } ∧
    regWrite ⟨7#3, .byte⟩ 0x0000#16 { zeros with bx := 0xA55A#16, di := 0x1111#16 } =
      { zeros with bx := 0x005A#16, di := 0x1111#16 } ∧
    regWrite ⟨2#3, .byte⟩ 0x1234#16 zeros = { zeros with dx := 0x0034#16 } := by decide

/-- EV1, EV4, EV5, EV7: the effective address. -/
theorem test_effective_addresses :
    effectiveAddress ⟨some .bp, some .di, 0x000A#16, .word⟩ { zeros with bp := 0x0010#16, di := 0x0004#16 } =
      0x001E#16 ∧
    effectiveAddress ⟨some .bx, some .si, 0x0000#16, .word⟩ { zeros with bx := 0xFFFE#16, si := 0x0004#16 } =
      0x0002#16 ∧
    effectiveAddress ⟨some .bp, none, 0xFFFE#16, .word⟩ { zeros with bp := 0x0001#16 } = 0xFFFF#16 ∧
    effectiveAddress ⟨some .bx, none, 0xFF80#16, .word⟩ { zeros with bx := 0x0040#16 } = 0xFFC0#16 := by decide

/-- EV8, EV9, EV11, EV12, EV14: little-endian words, a byte write beside a byte, the top of memory. -/
theorem test_memory :
    memRead [(0x1E, 0xCD#8), (0x1F, 0xAB#8)] 0x001E#16 .word = .ok 0xABCD#16 ∧
    memWrite [] 0x0200#16 .word 0x1234#16 = .ok [(0x200, 0x34#8), (0x201, 0x12#8)] ∧
    memWrite [(0x200, 0x34#8), (0x201, 0x12#8)] 0x0200#16 .byte 0x12FF#16 =
      .ok [(0x200, 0xFF#8), (0x201, 0x12#8)] ∧
    memRead [(0xFFFE, 0x01#8), (0xFFFF, 0x02#8)] 0xFFFE#16 .word = .ok 0x0201#16 ∧
    memRead [] 0xFFFF#16 .word = .error .memOutOfRange := by decide

/-- Memory keeps its canonical form: a zero stored over a cell takes the cell away. -/
theorem test_memory_zero : memWrite [(0x200, 0x34#8), (0x201, 0x12#8)] 0x0200#16 .byte 0x0000#16 =
    .ok [(0x201, 0x12#8)] := by decide

/-! ## Single steps: at most two for each constructor -/

/-- MV3: `8A E0`, direction bit, halves of one slot. -/
theorem test_exec_movRmReg :
    stepGives (start [0x8A#8, 0xE0#8] ({ zeros with ax := 0x12FF#16 }) false false [])
      ({ zeros with ax := 0xFFFF#16 }) [] 0x0002#16 false false = true := by decide

/-- MV17: `89 07`, word store at the top address. -/
theorem test_exec_movRmReg_fault :
    stepGives (start [0x89#8, 0x07#8] ({ zeros with ax := 0xBEEF#16, bx := 0xFFFF#16 }) true false [])
      ({ zeros with ax := 0xBEEF#16, bx := 0xFFFF#16 }) [] 0x0002#16 true false .faulted .memOutOfRange = true := by
  decide

/-- MV9: `C6 46 80 7F`, negative displacement. -/
theorem test_exec_movImmRm :
    stepGives (start [0xC6#8, 0x46#8, 0x80#8, 0x7F#8] ({ zeros with bp := 0x0100#16 }) false false [])
      ({ zeros with bp := 0x0100#16 }) [(0x0080, 0x7F#8)] 0x0004#16 false false = true := by decide

/-- MV8: `C7 06 E8 03 34 12`, six bytes. -/
theorem test_exec_movImmRm_word :
    stepGives (start [0xC7#8, 0x06#8, 0xE8#8, 0x03#8, 0x34#8, 0x12#8] (zeros) false false [])
      (zeros) [(0x03E8, 0x34#8), (0x03E9, 0x12#8)] 0x0006#16 false false = true := by decide

/-- MV11: `B4 80`, high half. -/
theorem test_exec_movImmReg :
    stepGives (start [0xB4#8, 0x80#8] ({ zeros with ax := 0x0001#16 }) false false [])
      ({ zeros with ax := 0x8001#16 }) [] 0x0002#16 false false = true := by decide

/-- MV12: `BC FE FF`, `sp`. -/
theorem test_exec_movImmReg_word :
    stepGives (start [0xBC#8, 0xFE#8, 0xFF#8] (zeros) false false [])
      ({ zeros with sp := 0xFFFE#16 }) [] 0x0003#16 false false = true := by decide

/-- AV2: `01 C0`, both reads before the write, word wrap. -/
theorem test_exec_addRmReg :
    stepGives (start [0x01#8, 0xC0#8] ({ zeros with ax := 0x8000#16 }) false false [])
      (zeros) [] 0x0002#16 true false = true := by decide

/-- AV13: `00 00`, byte sum in memory wraps to zero. -/
theorem test_exec_addRmReg_memory :
    stepGives (start [0x00#8, 0x00#8] ({ zeros with ax := 0x0180#16, bx := 0x0300#16 }) false false [(0x0300, 0x80#8)])
      ({ zeros with ax := 0x0180#16, bx := 0x0300#16 }) [] 0x0002#16 true false = true := by decide

/-- AV14: `83 06 E8 03 80`, sign-extended immediate. -/
theorem test_exec_addImmRm :
    stepGives (start [0x83#8, 0x06#8, 0xE8#8, 0x03#8, 0x80#8] (zeros) false false [(0x03E9, 0x01#8)])
      (zeros) [(0x03E8, 0x80#8)] 0x0005#16 false false = true := by decide

/-- AV10: `80 C4 01`, no carry out of `ah`. -/
theorem test_exec_addImmRm_byte :
    stepGives (start [0x80#8, 0xC4#8, 0x01#8] ({ zeros with ax := 0xFF00#16 }) false false [])
      (zeros) [] 0x0003#16 true false = true := by decide

/-- AV4: `05 01 00`, `SF` is bit 15. -/
theorem test_exec_addImmAcc :
    stepGives (start [0x05#8, 0x01#8, 0x00#8] ({ zeros with ax := 0x7FFF#16 }) false false [])
      ({ zeros with ax := 0x8000#16 }) [] 0x0003#16 false true = true := by decide

/-- AV5: `04 FF`, `ah` kept. -/
theorem test_exec_addImmAcc_byte :
    stepGives (start [0x04#8, 0xFF#8] ({ zeros with ax := 0x1201#16 }) false false [])
      ({ zeros with ax := 0x1200#16 }) [] 0x0002#16 true false = true := by decide

/-- SV2: `2B D8`, order of the operands. -/
theorem test_exec_subRmReg :
    stepGives (start [0x2B#8, 0xD8#8] ({ zeros with ax := 0x0001#16, bx := 0x0002#16 }) false false [])
      ({ zeros with ax := 0x0001#16, bx := 0x0001#16 }) [] 0x0002#16 false false = true := by decide

/-- SV12: `2A 47 FF`, memory source. -/
theorem test_exec_subRmReg_memory :
    stepGives (start [0x2A#8, 0x47#8, 0xFF#8] ({ zeros with ax := 0x0010#16, bx := 0x0101#16 }) false false [(0x0100, 0x10#8)])
      ({ zeros with bx := 0x0101#16 }) [(0x0100, 0x10#8)] 0x0003#16 true false = true := by decide

/-- SV10: `81 2E 00 10 01 00`, borrow through a word in memory. -/
theorem test_exec_subImmRm :
    stepGives (start [0x81#8, 0x2E#8, 0x00#8, 0x10#8, 0x01#8, 0x00#8] (zeros) false false [])
      (zeros) [(0x1000, 0xFF#8), (0x1001, 0xFF#8)] 0x0006#16 false true = true := by decide

/-- SV7: `80 E8 05`, scenario C. -/
theorem test_exec_subImmRm_byte :
    stepGives (start [0x80#8, 0xE8#8, 0x05#8] ({ zeros with ax := 0x1203#16 }) false false [])
      ({ zeros with ax := 0x12FE#16 }) [] 0x0003#16 false true = true := by decide

/-- SV9: `2D 01 00`, `SF` is of the result. -/
theorem test_exec_subImmAcc :
    stepGives (start [0x2D#8, 0x01#8, 0x00#8] ({ zeros with ax := 0x8000#16 }) false false [])
      ({ zeros with ax := 0x7FFF#16 }) [] 0x0003#16 false false = true := by decide

/-- SV6: `2C 05`, byte wrap. -/
theorem test_exec_subImmAcc_byte :
    stepGives (start [0x2C#8, 0x05#8] ({ zeros with ax := 0x1203#16 }) false false [])
      ({ zeros with ax := 0x12FE#16 }) [] 0x0002#16 false true = true := by decide

/-- CV2: `38 C4`, nothing written. -/
theorem test_exec_cmpRmReg :
    stepGives (start [0x38#8, 0xC4#8] ({ zeros with ax := 0x0305#16 }) false false [])
      ({ zeros with ax := 0x0305#16 }) [] 0x0002#16 false true = true := by decide

/-- CV12: `39 07`, fault on the read. -/
theorem test_exec_cmpRmReg_fault :
    stepGives (start [0x39#8, 0x07#8] ({ zeros with ax := 0x0001#16, bx := 0xFFFF#16 }) false false [])
      ({ zeros with ax := 0x0001#16, bx := 0xFFFF#16 }) [] 0x0002#16 false false .faulted .memOutOfRange = true := by
  decide

/-- CV8: `83 3E E8 03 00`, memory destination not written. -/
theorem test_exec_cmpImmRm :
    stepGives (start [0x83#8, 0x3E#8, 0xE8#8, 0x03#8, 0x00#8] (zeros) false false [(0x03E9, 0x80#8)])
      (zeros) [(0x03E9, 0x80#8)] 0x0005#16 false true = true := by decide

/-- CV11: `80 3E 00 20 80`, no signed overflow seen. -/
theorem test_exec_cmpImmRm_byte :
    stepGives (start [0x80#8, 0x3E#8, 0x00#8, 0x20#8, 0x80#8] (zeros) false false [(0x2000, 0x7F#8)])
      (zeros) [(0x2000, 0x7F#8)] 0x0005#16 false true = true := by decide

/-- CV7: `3C 00`, byte compare. -/
theorem test_exec_cmpImmAcc :
    stepGives (start [0x3C#8, 0x00#8] ({ zeros with ax := 0xFF00#16 }) false true [])
      ({ zeros with ax := 0xFF00#16 }) [] 0x0002#16 true false = true := by decide

/-- CV1: `3D 00 00`, scenario B. -/
theorem test_exec_cmpImmAcc_word :
    stepGives (start [0x3D#8, 0x00#8, 0x00#8] (zeros) false false [])
      (zeros) [] 0x0003#16 true false = true := by decide

/-- BV1: `75 F9` at offset 11. -/
theorem test_exec_jne_taken :
    stepGives (startAt 11 [0x75#8, 0xF9#8] false false (zeros))
      (zeros) [] 0x0006#16 false false = true := by decide

/-- BV7: `75 80` at offset 0. -/
theorem test_exec_jne_out_of_range :
    stepGives (startAt 0 [0x75#8, 0x80#8] false false (zeros))
      (zeros) [] 0xFF82#16 false false .halted .truncatedInstruction = true := by decide

/-- BV10: `74 05` at offset 16. -/
theorem test_exec_je :
    stepGives (startAt 16 [0x74#8, 0x05#8] true false (zeros))
      (zeros) [] 0x0012#16 true false = true := by decide

/-- BV11: `78 05` at offset 16. -/
theorem test_exec_js :
    stepGives (startAt 16 [0x78#8, 0x05#8] false true (zeros))
      (zeros) [] 0x0012#16 false true = true := by decide

/-- BV12: `E2 F0` at offset 16. -/
theorem test_exec_loop :
    stepGives (startAt 16 [0xE2#8, 0xF0#8] false false ({ zeros with cx := 0x0003#16 }))
      ({ zeros with cx := 0x0003#16 }) [] 0x0012#16 false false = true := by decide

/-- BV13: `E3 05` at offset 16. -/
theorem test_exec_jcxz :
    stepGives (startAt 16 [0xE3#8, 0x05#8] false false (zeros))
      (zeros) [] 0x0012#16 false false = true := by decide

/-- BV14: `E0 FC` at offset 16. -/
theorem test_exec_loopnz :
    stepGives (startAt 16 [0xE0#8, 0xFC#8] false false ({ zeros with cx := 0x0002#16 }))
      ({ zeros with cx := 0x0002#16 }) [] 0x0012#16 false false = true := by decide

/-- BV15: `E1 FC` at offset 16. -/
theorem test_exec_loopz :
    stepGives (startAt 16 [0xE1#8, 0xFC#8] true false ({ zeros with cx := 0x0002#16 }))
      ({ zeros with cx := 0x0002#16 }) [] 0x0012#16 true false = true := by decide

/-- BV16: `70 80` at offset 16. -/
theorem test_exec_jo :
    stepGives (startAt 16 [0x70#8, 0x80#8] false false (zeros))
      (zeros) [] 0x0012#16 false false = true := by decide

/-- BV18: `7C 05` at offset 16. -/
theorem test_exec_jl :
    stepGives (startAt 16 [0x7C#8, 0x05#8] false true (zeros))
      (zeros) [] 0x0012#16 false true = true := by decide

/-- BV19: `77 05` at offset 16. -/
theorem test_exec_jnbe :
    stepGives (startAt 16 [0x77#8, 0x05#8] false false (zeros))
      (zeros) [] 0x0012#16 false false = true := by decide

/-- R154 to R167: the other ten branches, each with the flags that would make the 8086 jump. -/
theorem test_exec_no_effect :
    nextIs (execJno 0x05#8 (start [])) (start []) = true ∧ nextIs (execJb 0x05#8 (start [])) (start []) = true ∧
    nextIs (execJnb 0x05#8 (start [])) (start []) = true ∧
    nextIs (execJbe 0x05#8 (start [] zeros true)) (start [] zeros true) = true ∧
    nextIs (execJns 0x05#8 (start [])) (start []) = true ∧ nextIs (execJp 0x05#8 (start [])) (start []) = true ∧
    nextIs (execJnp 0x05#8 (start [])) (start []) = true ∧ nextIs (execJnl 0x05#8 (start [])) (start []) = true ∧
    nextIs (execJle 0x05#8 (start [] zeros true)) (start [] zeros true) = true ∧
    nextIs (execJnle 0x05#8 (start [])) (start []) = true := by decide

/-! ## Halts -/

/-- HV1: image `empty`, `ip` 0. -/
theorem test_halt_HV1 :
    nextIs (step { start [] with ip := 0#16 })
      { start [] with ip := 0#16, status := .halted, haltReason := .endOfProgram } = true := by decide

/-- HV2: image `F1`, `ip` 0. -/
theorem test_halt_HV2 :
    nextIs (step { start [0xF1#8] with ip := 0#16 })
      { start [0xF1#8] with ip := 0#16, status := .halted, haltReason := .unrecognizedOpcode } = true := by decide

/-- HV4: image `8B`, `ip` 0. -/
theorem test_halt_HV4 :
    nextIs (step { start [0x8B#8] with ip := 0#16 })
      { start [0x8B#8] with ip := 0#16, status := .halted, haltReason := .truncatedInstruction } = true := by decide

/-- HV5: image `80 CB 05`, `ip` 0. -/
theorem test_halt_HV5 :
    nextIs (step { start [0x80#8, 0xCB#8, 0x05#8] with ip := 0#16 })
      { start [0x80#8, 0xCB#8, 0x05#8] with ip := 0#16, status := .halted, haltReason := .unrecognizedOpcode } = true := by
  decide

/-- HV8: image `C7 06 E8 03 34`, `ip` 0. -/
theorem test_halt_HV8 :
    nextIs (step { start [0xC7#8, 0x06#8, 0xE8#8, 0x03#8, 0x34#8] with ip := 0#16 })
      { start [0xC7#8, 0x06#8, 0xE8#8, 0x03#8, 0x34#8] with ip := 0#16, status := .halted, haltReason := .truncatedInstruction } = true := by
  decide

/-- HV11: image `B8 05 00`, `ip` 3. -/
theorem test_halt_HV11 :
    nextIs (step { start [0xB8#8, 0x05#8, 0x00#8] with ip := 3#16 })
      { start [0xB8#8, 0x05#8, 0x00#8] with ip := 3#16, status := .halted, haltReason := .endOfProgram } = true := by
  decide

/-- HV12: image `B8 05 00`, `ip` 4. -/
theorem test_halt_HV12 :
    nextIs (step { start [0xB8#8, 0x05#8, 0x00#8] with ip := 4#16 })
      { start [0xB8#8, 0x05#8, 0x00#8] with ip := 4#16, status := .halted, haltReason := .truncatedInstruction } = true := by
  decide

/-- HV13: image `B8 05 00`, `ip` 1. -/
theorem test_halt_HV13 :
    nextIs (step { start [0xB8#8, 0x05#8, 0x00#8] with ip := 1#16 })
      { start [0xB8#8, 0x05#8, 0x00#8] with ip := 1#16, status := .halted, haltReason := .truncatedInstruction } = true := by
  decide
/-! ## The host's entries: a placed instruction is the first to run after reset -/

/-- `B8 05 00` placed at the reset state's `ip`: one step runs it (X7, its first instruction). -/
theorem test_fetch_word_mov :
    stepGives (State.reset.withFetchWord 24 0x0005B8) { zeros with ax := 0x0005#16 } [] 0x0003#16 false false = true := by
  decide

/-- `2D 00 80` numbered as the table numbers it: the word's bits above its own are zero (SV8's form, from 0). -/
theorem test_fetch_word_sub :
    stepGives (State.reset.withFetchWord 24 0x80002D) { zeros with ax := 0x8000#16 } [] 0x0003#16 false true = true := by
  decide

/-- A machine that has halted runs a placed instruction. -/
theorem test_fetch_word_after_halt :
    stepGives (({ start [] with ip := 0x0010#16 }.raiseHalt .endOfProgram).withFetchWord 16 0x0575) zeros []
      0x0017#16 false false = true := by decide

/-- R111: the Report of `B8 05 00` (P7, step 1). -/
theorem test_report :
    report (start [0xB8#8, 0x05#8, 0x00#8]) =
      some ⟨⟨.mov, .register ⟨0#3, .word⟩, .immediate 0x0005#16, 0, [0xB8#8, 0x05#8, 0x00#8]⟩,
        ⟨zeros, false, false⟩, ⟨{ zeros with ax := 0x0005#16 }, false, false⟩, some ⟨0#3, .word⟩⟩ := by decide

/-- R109, R111: a faulting step makes no Report (P5, step 4). -/
theorem test_no_report_of_a_fault :
    report (start [0x89#8, 0x07#8] { zeros with bx := 0xFFFF#16 }) = none := by decide

/-! ## Witnesses: for every statement with hypotheses, values that meet all of them together -/

/-- A state with word operands at the last legal address through `bx`, and bytes above and below it. -/
def atTop : State := start [] { zeros with ax := 0x1234#16, bx := 0xFFFE#16 } false false [(0xFFFE, 0x34#8)]

/-- A state whose `bx` is the top address. -/
def beyondTop : State := start [] { zeros with ax := 0x1234#16, bx := 0xFFFF#16 }

/-- EncodedInstructionDecodesToItself: every form of the r/m operand and of the immediate. -/
theorem witness_EncodedInstructionDecodesToItself :
    (Instr.movRmReg true .byte 7#3 (.noDisp 0b111#3)).wellFormed = true ∧
    (Instr.cmpImmRm true .word (.disp16 6#3 0xFFFF#16) (.imm8 0x80#8)).wellFormed = true ∧
    (Instr.movImmRm .word 5#3 (.direct 0xFFFF#16) (.imm16 0xFFFF#16)).wellFormed = true ∧
    (Instr.jcxz 0xFF#8).wellFormed = true := by decide

/-- DecodedBytesAreTheEncoding: bytes follow the decoded ones. -/
theorem witness_DecodedBytesAreTheEncoding :
    decode [0x89#8, 0xD8#8, 0xF1#8] = .ok (.movRmReg false .word 3#3 (.register 0#3)) [0xF1#8] := by decide

/-- CutEncodingIsTruncated: nothing of the encoding, and all but the last of six bytes. -/
theorem witness_CutEncodingIsTruncated :
    (Instr.movImmRm .word 0#3 (.direct 0x03E8#16) (.imm16 0x1234#16)).wellFormed = true ∧
    0 < (encode (.movImmRm .word 0#3 (.direct 0x03E8#16) (.imm16 0x1234#16))).length ∧
    5 < (encode (.movImmRm .word 0#3 (.direct 0x03E8#16) (.imm16 0x1234#16))).length := by decide

/-- DecodedLengthIsTheTabledLength: the shortest and the longest instruction. -/
theorem witness_DecodedLengthIsTheTabledLength :
    decode [0x75#8, 0xFE#8] = .ok (.jne 0xFE#8) [] ∧
    decode [0xC7#8, 0x06#8, 0xE8#8, 0x03#8, 0x34#8, 0x12#8] =
      .ok (.movImmRm .word 0#3 (.direct 0x03E8#16) (.imm16 0x1234#16)) [] := by decide

/-- DecodedMnemonicIsTheRowsMnemonic: a row chosen by the second byte. -/
theorem witness_DecodedMnemonicIsTheRowsMnemonic :
    decode (0x83#8 :: 0xE9#8 :: [0x01#8]) = .ok (.subImmRm true .word (.register 1#3) (.imm8 0x01#8)) [] := by decide

/-- OperandVariantsOfTheRecord: an instruction that is no branch. -/
theorem witness_OperandVariantsOfTheRecord :
    (Instr.movRmReg true .word 3#3 (.disp8 3#3 0x0A#8)).mnemonic.isBranch = false := by decide

/-- WordRegisterAccessIsTheWholeSlot: another slot than the one written. -/
theorem witness_WordRegisterAccessIsTheWholeSlot : Slot.di ≠ slotOf 6#3 ∧ Slot.cx ≠ slotOf 0#3 := by decide

/-- RegisterReadAfterWrite: each clause. `bh` and `bh`; `bh` and `di`; `al` and `ah`; `ax` and `al`, `ax` and `ah`;
`cl` and `cx`, `ch` and `cx`. -/
theorem witness_RegisterReadAfterWrite :
    accessSlot ⟨7#3, .byte⟩ ≠ accessSlot ⟨7#3, .word⟩ ∧ (0#3 : BitVec 3) ≠ 4#3 ∧
    accessSlot ⟨0#3, .word⟩ = accessSlot ⟨0#3, .byte⟩ ∧ accessSlot ⟨0#3, .word⟩ = accessSlot ⟨4#3, .byte⟩ ∧
    accessSlot ⟨1#3, .byte⟩ = accessSlot ⟨1#3, .word⟩ ∧ accessSlot ⟨5#3, .byte⟩ = accessSlot ⟨1#3, .word⟩ := by
  decide

/-- EffectiveAddressIsTheSumModulo65536: each form of a memory operand, at both widths; and a register that changes. -/
theorem witness_EffectiveAddressIsTheSumModulo65536 :
    (RmField.noDisp 7#3).place .byte = .memory ⟨some .bx, none, 0x0000#16, .byte⟩ ∧
    (RmField.direct 0xFFFF#16).place .word = .memory ⟨none, none, 0xFFFF#16, .word⟩ ∧
    (RmField.disp8 0#3 0x80#8).place .word = .memory ⟨some .bx, some .si, 0xFF80#16, .word⟩ ∧
    (RmField.disp16 6#3 0x8000#16).place .byte = .memory ⟨some .bp, none, 0x8000#16, .byte⟩ ∧
    nextIs (exec (.movRmReg true .word 3#3 (.noDisp 7#3)) atTop)
      { atTop with
        regs := { zeros with ax := 0x1234#16, bx := 0x0034#16 }
        lastWrite := some ⟨3#3, .word⟩ } = true ∧
    (0x0034#16 : Word) ≠ atTop.regs.get .bx := by decide

/-- WordsAreLittleEndian: the last legal word address, and two byte stores there. -/
theorem witness_WordsAreLittleEndian :
    (0xFFFE#16 : Word) ≠ 0xFFFF#16 ∧
    memWrite [] 0xFFFE#16 .byte 0x0012#16 = .ok [(0xFFFE, 0x12#8)] ∧
    memWrite [(0xFFFE, 0x12#8)] (0xFFFE#16 + 1#16) .byte 0x0034#16 =
      .ok [(0xFFFE, 0x12#8), (0xFFFF, 0x34#8)] := by decide

/-- StoreChangesOnlyItsBytes: a store at the top at either width from a canonical memory, and the address that raises
the fault. -/
theorem witness_StoreChangesOnlyItsBytes :
    memWrite [] 0xFFFF#16 .byte 0x0012#16 = .ok [(0xFFFF, 0x12#8)] ∧
    memWrite [] 0xFFFE#16 .word 0x3412#16 = .ok [(0xFFFE, 0x12#8), (0xFFFF, 0x34#8)] ∧
    Memory.wf [] ∧ memWrite [] 0xFFFF#16 .word 0x3412#16 = .error .memOutOfRange := by decide

/-- LoadReturnsTheStoredRegister: a word at the last legal address, a byte at the top, a register. -/
theorem witness_LoadReturnsTheStoredRegister :
    raisesMemFault (.movRmReg false .word 0#3 (.noDisp 7#3)) atTop = false ∧
    raisesMemFault (.movRmReg false .byte 0#3 (.noDisp 7#3)) beyondTop = false ∧
    raisesMemFault (.movRmReg false .word 0#3 (.register 1#3)) beyondTop = false := by decide

/-- MovStoresTheSourceValue: the three constructors, with memory operands in either place. -/
theorem witness_MovStoresTheSourceValue :
    ((Instr.movRmReg true .word 0#3 (.noDisp 7#3)).mnemonic = .mov ∧
      raisesMemFault (.movRmReg true .word 0#3 (.noDisp 7#3)) atTop = false) ∧
    ((Instr.movImmRm .byte 3#3 (.noDisp 7#3) (.imm8 0xFF#8)).mnemonic = .mov ∧
      raisesMemFault (.movImmRm .byte 3#3 (.noDisp 7#3) (.imm8 0xFF#8)) beyondTop = false) ∧
    ((Instr.movImmReg .byte 4#3 (.imm8 0x80#8)).mnemonic = .mov ∧
      raisesMemFault (.movImmReg .byte 4#3 (.imm8 0x80#8)) beyondTop = false) := by decide

/-- MovDestinationReadsAsTheSource: a memory destination and a byte register. -/
theorem witness_MovDestinationReadsAsTheSource :
    ((Instr.movImmRm .word 0#3 (.noDisp 7#3) (.imm16 0x8000#16)).mnemonic = .mov ∧
      operandWidth (Instr.movImmRm .word 0#3 (.noDisp 7#3) (.imm16 0x8000#16)).dst = some .word ∧
      raisesMemFault (.movImmRm .word 0#3 (.noDisp 7#3) (.imm16 0x8000#16)) atTop = false) ∧
    ((Instr.movImmReg .byte 4#3 (.imm8 0x80#8)).mnemonic = .mov ∧
      operandWidth (Instr.movImmReg .byte 4#3 (.imm8 0x80#8)).dst = some .byte ∧
      raisesMemFault (.movImmReg .byte 4#3 (.imm8 0x80#8)) beyondTop = false) := by decide

/-- AddStoresTheWrappedSum: the three constructors. -/
theorem witness_AddStoresTheWrappedSum :
    ((Instr.addRmReg false .word 0#3 (.noDisp 7#3)).mnemonic = .add ∧
      operandWidth (Instr.addRmReg false .word 0#3 (.noDisp 7#3)).dst = some .word ∧
      raisesMemFault (.addRmReg false .word 0#3 (.noDisp 7#3)) atTop = false) ∧
    ((Instr.addImmRm true .byte (.noDisp 7#3) (.imm8 0xFF#8)).mnemonic = .add ∧
      operandWidth (Instr.addImmRm true .byte (.noDisp 7#3) (.imm8 0xFF#8)).dst = some .byte ∧
      raisesMemFault (.addImmRm true .byte (.noDisp 7#3) (.imm8 0xFF#8)) beyondTop = false) ∧
    ((Instr.addImmAcc .word (.imm16 0xFFFF#16)).mnemonic = .add ∧
      operandWidth (Instr.addImmAcc .word (.imm16 0xFFFF#16)).dst = some .word ∧
      raisesMemFault (.addImmAcc .word (.imm16 0xFFFF#16)) beyondTop = false) := by decide

/-- SubStoresTheWrappedDifference: the three constructors. -/
theorem witness_SubStoresTheWrappedDifference :
    ((Instr.subRmReg true .byte 0#3 (.noDisp 7#3)).mnemonic = .sub ∧
      operandWidth (Instr.subRmReg true .byte 0#3 (.noDisp 7#3)).dst = some .byte ∧
      raisesMemFault (.subRmReg true .byte 0#3 (.noDisp 7#3)) beyondTop = false) ∧
    ((Instr.subImmRm false .word (.noDisp 7#3) (.imm16 0xFFFF#16)).mnemonic = .sub ∧
      operandWidth (Instr.subImmRm false .word (.noDisp 7#3) (.imm16 0xFFFF#16)).dst = some .word ∧
      raisesMemFault (.subImmRm false .word (.noDisp 7#3) (.imm16 0xFFFF#16)) atTop = false) ∧
    ((Instr.subImmAcc .byte (.imm8 0x80#8)).mnemonic = .sub ∧
      operandWidth (Instr.subImmAcc .byte (.imm8 0x80#8)).dst = some .byte ∧
      raisesMemFault (.subImmAcc .byte (.imm8 0x80#8)) beyondTop = false) := by decide

/-- CmpSetsTheFlagsOfTheDifference: the three constructors. -/
theorem witness_CmpSetsTheFlagsOfTheDifference :
    ((Instr.cmpRmReg false .word 0#3 (.noDisp 7#3)).mnemonic = .cmp ∧
      operandWidth (Instr.cmpRmReg false .word 0#3 (.noDisp 7#3)).dst = some .word ∧
      raisesMemFault (.cmpRmReg false .word 0#3 (.noDisp 7#3)) atTop = false) ∧
    ((Instr.cmpImmRm false .byte (.noDisp 7#3) (.imm8 0x80#8)).mnemonic = .cmp ∧
      operandWidth (Instr.cmpImmRm false .byte (.noDisp 7#3) (.imm8 0x80#8)).dst = some .byte ∧
      raisesMemFault (.cmpImmRm false .byte (.noDisp 7#3) (.imm8 0x80#8)) beyondTop = false) ∧
    ((Instr.cmpImmAcc .word (.imm16 0x0000#16)).mnemonic = .cmp ∧
      operandWidth (Instr.cmpImmAcc .word (.imm16 0x0000#16)).dst = some .word ∧
      raisesMemFault (.cmpImmAcc .word (.imm16 0x0000#16)) beyondTop = false) := by decide

/-- AluResultAndFlagsAsIntegers: an `add` and, for the clauses of the others, a `sub` and a `cmp`. -/
theorem witness_AluResultAndFlagsAsIntegers :
    ((Instr.addImmAcc .word (.imm16 0xFFFF#16)).mnemonic.isAlu = true ∧
      operandWidth (Instr.addImmAcc .word (.imm16 0xFFFF#16)).dst = some .word ∧
      raisesMemFault (.addImmAcc .word (.imm16 0xFFFF#16)) atTop = false) ∧
    ((Instr.subRmReg false .word 0#3 (.noDisp 7#3)).mnemonic.isAlu = true ∧
      operandWidth (Instr.subRmReg false .word 0#3 (.noDisp 7#3)).dst = some .word ∧
      raisesMemFault (.subRmReg false .word 0#3 (.noDisp 7#3)) atTop = false) ∧
    ((Instr.cmpImmRm false .byte (.noDisp 7#3) (.imm8 0x80#8)).mnemonic.isAlu = true ∧
      operandWidth (Instr.cmpImmRm false .byte (.noDisp 7#3) (.imm8 0x80#8)).dst = some .byte ∧
      raisesMemFault (.cmpImmRm false .byte (.noDisp 7#3) (.imm8 0x80#8)) beyondTop = false) := by decide

/-- ZeroFlagMeansEqualOperands: `sub` and `cmp`, with operands that agree and operands that do not. -/
theorem witness_ZeroFlagMeansEqualOperands :
    ((Instr.subRmReg false .word 0#3 (.register 0#3)).mnemonic = .sub ∧
      operandWidth (Instr.subRmReg false .word 0#3 (.register 0#3)).dst = some .word ∧
      raisesMemFault (.subRmReg false .word 0#3 (.register 0#3)) atTop = false) ∧
    ((Instr.cmpRmReg true .word 0#3 (.noDisp 7#3)).mnemonic = .cmp ∧
      operandWidth (Instr.cmpRmReg true .word 0#3 (.noDisp 7#3)).dst = some .word ∧
      raisesMemFault (.cmpRmReg true .word 0#3 (.noDisp 7#3)) atTop = false) := by decide

/-- FlagsAreWrittenByAluAndReadByJne: an ALU instruction that does not fault, a `mov`, `jne`; and for the last clause a
next state. -/
theorem witness_FlagsAreWrittenByAluAndReadByJne :
    ((Instr.cmpImmAcc .word (.imm16 0x0000#16)).mnemonic.isAlu = true ∧
      raisesMemFault (.cmpImmAcc .word (.imm16 0x0000#16)) atTop = false) ∧
    ((Instr.je 0x05#8).mnemonic.isAlu = false ∧ (Instr.je 0x05#8).mnemonic ≠ .jne) ∧
    (Instr.jne 0x05#8).mnemonic = .jne ∧ (0x05#8 : Byte) ≠ 0x00#8 ∧
    ((Instr.movRmReg false .word 0#3 (.register 0#3)).mnemonic.isAlu = false ∧
      nextIs (exec (.movRmReg false .word 0#3 (.register 0#3)) atTop) { atTop with lastWrite := some ⟨0#3, .word⟩ } =
        true) := by decide

/-- MemoryFaultHasNoOtherEffect: one of each mnemonic, the memory operand in either place. -/
theorem witness_MemoryFaultHasNoOtherEffect :
    raisesMemFault (.movRmReg true .word 0#3 (.noDisp 7#3)) beyondTop = true ∧
    raisesMemFault (.addImmRm true .word (.disp8 7#3 0x00#8) (.imm8 0x01#8)) beyondTop = true ∧
    raisesMemFault (.subRmReg false .word 0#3 (.direct 0xFFFF#16)) atTop = true ∧
    raisesMemFault (.cmpRmReg false .word 0#3 (.disp16 7#3 0x0001#16)) atTop = true := by decide

/-- JneNotTakenChangesNothing. -/
theorem witness_JneNotTakenChangesNothing : (start [] zeros true).zf = true := by decide

/-- JneTakenMovesIpBySignedDisplacement: the targets 0 and 65535. -/
theorem witness_JneTakenMovesIpBySignedDisplacement :
    ((start []).zf = false ∧ 0 ≤ ((0x0080#16 : Word).toNat : Int) + (0x80#8 : Byte).toInt ∧
      ((0x0080#16 : Word).toNat : Int) + (0x80#8 : Byte).toInt ≤ 65535 ∧
      ((0x0080#16 : Word).toNat : Int) + (0x80#8 : Byte).toInt = 0) ∧
    (0 ≤ ((0xFF80#16 : Word).toNat : Int) + (0x7F#8 : Byte).toInt ∧
      ((0xFF80#16 : Word).toNat : Int) + (0x7F#8 : Byte).toInt ≤ 65535 ∧
      ((0xFF80#16 : Word).toNat : Int) + (0x7F#8 : Byte).toInt = 65535) := by decide

/-- JneOutOfRangeHalts: the targets -1 and 65536, and what is left in `ip`. -/
theorem witness_JneOutOfRangeHalts :
    ((start []).zf = false ∧ ((0x007F#16 : Word).toNat : Int) + (0x80#8 : Byte).toInt = -1) ∧
    ((0xFF81#16 : Word).toNat : Int) + (0x7F#8 : Byte).toInt = 65536 ∧
    nextIs (exec (.jne 0x80#8) { start [] with ip := 0x007F#16 })
      { start [] with ip := 0xFFFF#16, status := .halted, haltReason := .truncatedInstruction } = true ∧
    nextIs (exec (.jne 0x7F#8) { start [] with ip := 0xFF81#16 })
      { start [] with ip := 0x0000#16, status := .halted, haltReason := .truncatedInstruction } = true := by decide

/-- BranchesTouchNoData: a branch and its next state. -/
theorem witness_BranchesTouchNoData :
    (Instr.jne 0x05#8).mnemonic.isBranch = true ∧
    nextIs (exec (.jne 0x05#8) (startAt 2 [])) { startAt 2 [] with ip := 0x0007#16 } = true ∧
    (Instr.loop 0x05#8).mnemonic.isBranch = true ∧
    nextIs (exec (.loop 0x05#8) (startAt 2 [])) (startAt 2 []) = true := by decide

/-- JneToItselfNeverLeaves: BV4. -/
theorem witness_JneToItselfNeverLeaves :
    (startAt 16 [0x75#8, 0xFE#8]).status = .running ∧ (startAt 16 [0x75#8, 0xFE#8]).imem.length ≤ 65535 ∧
    (startAt 16 [0x75#8, 0xFE#8]).zf = false ∧
    (startAt 16 [0x75#8, 0xFE#8]).imem.drop (startAt 16 [0x75#8, 0xFE#8]).ip.toNat = [0x75#8, 0xFE#8] := by decide

/-- RegisterDestinationFrame: a `mov` to a word register from memory and an `add` to a byte register, with their next
states. -/
theorem witness_RegisterDestinationFrame :
    ((Instr.movRmReg true .word 1#3 (.noDisp 7#3)).mnemonic.isWriter = true ∧
      (Instr.movRmReg true .word 1#3 (.noDisp 7#3)).dst = .register ⟨1#3, .word⟩ ∧
      raisesMemFault (.movRmReg true .word 1#3 (.noDisp 7#3)) atTop = false ∧
      nextIs (exec (.movRmReg true .word 1#3 (.noDisp 7#3)) atTop)
        { atTop with
          regs := { zeros with ax := 0x1234#16, bx := 0xFFFE#16, cx := 0x0034#16 }
          lastWrite := some ⟨1#3, .word⟩ } = true) ∧
    ((Instr.addImmAcc .byte (.imm8 0x01#8)).mnemonic.isWriter = true ∧
      (Instr.addImmAcc .byte (.imm8 0x01#8)).dst = .register ⟨0#3, .byte⟩ ∧
      raisesMemFault (.addImmAcc .byte (.imm8 0x01#8)) atTop = false ∧
      nextIs (exec (.addImmAcc .byte (.imm8 0x01#8)) atTop)
        { atTop with
          regs := { zeros with ax := 0x1235#16, bx := 0xFFFE#16 }
          lastWrite := some ⟨0#3, .byte⟩ } = true) := by decide

/-- MemoryDestinationFrame: a `mov` of a word to the last legal address and a `sub` of a byte at the top, with their
next states. -/
theorem witness_MemoryDestinationFrame :
    ((Instr.movRmReg false .word 0#3 (.noDisp 7#3)).mnemonic.isWriter = true ∧
      (Instr.movRmReg false .word 0#3 (.noDisp 7#3)).dst = .memory ⟨some .bx, none, 0x0000#16, .word⟩ ∧
      raisesMemFault (.movRmReg false .word 0#3 (.noDisp 7#3)) atTop = false ∧
      nextIs (exec (.movRmReg false .word 0#3 (.noDisp 7#3)) atTop)
        { atTop with dmem := [(0xFFFE, 0x34#8), (0xFFFF, 0x12#8)] } = true) ∧
    ((Instr.subImmRm false .byte (.noDisp 7#3) (.imm8 0x01#8)).mnemonic.isWriter = true ∧
      (Instr.subImmRm false .byte (.noDisp 7#3) (.imm8 0x01#8)).dst = .memory ⟨some .bx, none, 0x0000#16, .byte⟩ ∧
      raisesMemFault (.subImmRm false .byte (.noDisp 7#3) (.imm8 0x01#8)) beyondTop = false ∧
      nextIs (exec (.subImmRm false .byte (.noDisp 7#3) (.imm8 0x01#8)) beyondTop)
        { beyondTop with dmem := [(0xFFFF, 0xFF#8)], sf := true } = true) := by decide

/-- CompareWritesOnlyFlags: a compare with memory and its next state. -/
theorem witness_CompareWritesOnlyFlags :
    (Instr.cmpRmReg false .word 0#3 (.noDisp 7#3)).mnemonic = .cmp ∧
    raisesMemFault (.cmpRmReg false .word 0#3 (.noDisp 7#3)) atTop = false ∧
    nextIs (exec (.cmpRmReg false .word 0#3 (.noDisp 7#3)) atTop) { atTop with sf := true } = true := by decide

/-- LastWriteIsBookkeepingOnly: a register written; and, for the three ways it stays, a compare, a memory destination,
a fault. -/
theorem witness_LastWriteIsBookkeepingOnly :
    (nextIs (exec (.movImmReg .byte 4#3 (.imm8 0x80#8)) (start []))
        { start [] with regs := { zeros with ax := 0x8000#16 }, lastWrite := some ⟨4#3, .byte⟩ } = true ∧
      (Instr.movImmReg .byte 4#3 (.imm8 0x80#8)).mnemonic.isWriter = true ∧
      (Instr.movImmReg .byte 4#3 (.imm8 0x80#8)).dst = .register ⟨4#3, .byte⟩ ∧
      raisesMemFault (.movImmReg .byte 4#3 (.imm8 0x80#8)) (start []) = false) ∧
    (Instr.cmpImmAcc .byte (.imm8 0x00#8)).mnemonic.isWriter = false ∧
    (Instr.movRmReg false .byte 0#3 (.noDisp 7#3)).dst = .memory ⟨some .bx, none, 0x0000#16, .byte⟩ ∧
    raisesMemFault (.movRmReg true .word 0#3 (.noDisp 7#3)) beyondTop = true := by decide

/-- StepRunsTheInstructionAtIp: an instruction in the middle of an image, with bytes after it. -/
theorem witness_StepRunsTheInstructionAtIp :
    (Instr.addRmReg false .word 1#3 (.register 0#3)).wellFormed = true ∧
    (startAt 6 [0x01#8, 0xC8#8, 0xF1#8]).status = .running ∧ (startAt 6 [0x01#8, 0xC8#8, 0xF1#8]).imem.length ≤ 65535 ∧
    (startAt 6 [0x01#8, 0xC8#8, 0xF1#8]).imem.drop (startAt 6 [0x01#8, 0xC8#8, 0xF1#8]).ip.toNat =
      encode (.addRmReg false .word 1#3 (.register 0#3)) ++ [0xF1#8] := by decide

/-- IpAdvancesAndOnlyATakenJneMovesItAgain: each clause, a decoded instruction, an `ip` that moves, the two failures. -/
theorem witness_IpAdvancesAndOnlyATakenJneMovesItAgain :
    (decode (startAt 6 [0x01#8, 0xC8#8, 0xF1#8]).bytesAtIp =
        .ok (.addRmReg false .word 1#3 (.register 0#3)) [0xF1#8] ∧
      (startAt 6 [0x01#8, 0xC8#8, 0xF1#8]).bytesAtIp = [0x01#8, 0xC8#8] ++ [0xF1#8]) ∧
    (nextIs (exec (.jne 0x05#8) (startAt 2 [])) { startAt 2 [] with ip := 0x0007#16 } = true ∧
      { startAt 2 [] with ip := 0x0007#16 }.ip ≠ (startAt 2 []).ip) ∧
    (decode (start [0xF1#8]).bytesAtIp = .unrecognized ∧
      nextIs (step (start [0xF1#8])) ((start [0xF1#8]).raiseHalt .unrecognizedOpcode) = true) ∧
    (decode (start [0x8B#8]).bytesAtIp = .truncated ∧
      nextIs (step (start [0x8B#8])) ((start [0x8B#8]).raiseHalt .truncatedInstruction) = true) := by decide

/-- EndOfProgramHalts: HV11. -/
theorem witness_EndOfProgramHalts :
    (startAt 3 []).status = .running ∧ (startAt 3 []).ip.toNat = (startAt 3 []).imem.length := by decide

/-- StoppingConditionsInOrder: each clause, `ip` one past the end, an unrecognised last byte, a recognised one, an
illegal sub-operation with nothing after it, an instruction cut to two bytes and to one byte less than its length. -/
theorem witness_StoppingConditionsInOrder :
    ((startAt 3 []).ip.toNat = (startAt 3 []).imem.length) ∧
    ((start [0xB8#8]).imem.length < { start [0xB8#8] with ip := 2#16 }.ip.toNat) ∧
    ((startAt 1 [0xF1#8]).imem.drop (startAt 1 [0xF1#8]).ip.toNat = [0xF1#8] ∧ recognisedFirstByte 0xF1#8 = false) ∧
    ((startAt 1 [0x8B#8]).imem.drop (startAt 1 [0x8B#8]).ip.toNat = [0x8B#8] ∧ recognisedFirstByte 0x8B#8 = true) ∧
    ((start [0x80#8, 0xCB#8]).imem.drop (start [0x80#8, 0xCB#8]).ip.toNat = [0x80#8, 0xCB#8] ∧
      illegalSubOperation 0x80#8 0xCB#8 = true) ∧
    ((Instr.movImmRm .word 0#3 (.direct 0x03E8#16) (.imm16 0x1234#16)).wellFormed = true ∧
      5 < (encode (.movImmRm .word 0#3 (.direct 0x03E8#16) (.imm16 0x1234#16))).length ∧
      (start [0xC7#8, 0x06#8]).imem.drop (start [0xC7#8, 0x06#8]).ip.toNat =
        (encode (.movImmRm .word 0#3 (.direct 0x03E8#16) (.imm16 0x1234#16))).take 2 ∧
      (start [0xC7#8, 0x06#8, 0xE8#8, 0x03#8, 0x34#8]).imem.drop 0 =
        (encode (.movImmRm .word 0#3 (.direct 0x03E8#16) (.imm16 0x1234#16))).take 5) := by decide

/-- TerminalStatesStay: one of each. -/
theorem witness_TerminalStatesStay :
    ((start []).raiseHalt .endOfProgram).status = .halted ∧ ((start []).raiseFault .memOutOfRange).status = .faulted := by
  decide

/-- EveryStopIsPrecise: a stop of each kind, a halt on the bytes, a memory fault, a `jne` out of range. -/
theorem witness_EveryStopIsPrecise :
    (nextIs (step (start [0xF1#8])) ((start [0xF1#8]).raiseHalt .unrecognizedOpcode) = true ∧
      ((start [0xF1#8]).raiseHalt .unrecognizedOpcode).status ≠ .running) ∧
    (nextIs (step (start [0x89#8, 0x07#8] { zeros with bx := 0xFFFF#16 }))
        { start [0x89#8, 0x07#8] { zeros with bx := 0xFFFF#16 } with
          ip := 0x0002#16, status := .faulted, haltReason := .memOutOfRange } = true) ∧
    (nextIs (step (start [0x75#8, 0x80#8]))
        { start [0x75#8, 0x80#8] with
          ip := 0xFF82#16, status := .halted, haltReason := .truncatedInstruction } = true) := by decide

/-- StepIsRefusedOnlyForAnOverlongImage: the shortest image the spec refuses. -/
theorem witness_StepIsRefusedOnlyForAnOverlongImage :
    (start (List.replicate 65536 0x00#8)).status = .running ∧
    65535 < (start (List.replicate 65536 0x00#8)).imem.length := by
  refine ⟨rfl, ?_⟩
  show 65535 < (List.replicate 65536 0x00#8).length
  rw [List.length_replicate]; omega

/-- StoresAreNeverSeenByFetch: a step that stores. -/
theorem witness_StoresAreNeverSeenByFetch :
    nextIs (step (start [0xC6#8, 0x07#8, 0x90#8]))
      { start [0xC6#8, 0x07#8, 0x90#8] with ip := 0x0003#16, dmem := [(0, 0x90#8)] } = true := by decide

/-- InvariantHoldsAfterReset: an image of the greatest legal length. -/
theorem witness_InvariantHoldsAfterReset : (List.replicate 65535 0x00#8).length ≤ 65535 := by
  rw [List.length_replicate]

/-- EveryStepKeepsTheInvariant: a state other than reset's that has the invariant, and its step. -/
theorem witness_EveryStepKeepsTheInvariant :
    MachineInv (start [0x80#8, 0x07#8, 0xFF#8] { zeros with bx := 0xFFFF#16 } true false [(0xFFFF, 0x01#8)]) ∧
    nextIs (step (start [0x80#8, 0x07#8, 0xFF#8] { zeros with bx := 0xFFFF#16 } true false [(0xFFFF, 0x01#8)]))
      { start [0x80#8, 0x07#8, 0xFF#8] { zeros with bx := 0xFFFF#16 } true false [] with ip := 0x0003#16 } = true :=
  ⟨⟨by decide, by decide, rfl, trivial, by decide⟩, by decide⟩

/-- EveryRunOfALegalImageHasAState: an image. -/
theorem witness_EveryRunOfALegalImageHasAState : [0x75#8, 0xFE#8].length ≤ 65535 := by decide

/-- ReportsAreOfExecutedInstructions: a state with a legal image whose step has a Report (see `test_report`). -/
theorem witness_ReportsAreOfExecutedInstructions :
    (start [0xB8#8, 0x05#8, 0x00#8]).imem.length ≤ 65535 ∧
    decode (start [0xB8#8, 0x05#8, 0x00#8]).bytesAtIp = .ok (.movImmReg .word 0#3 (.imm16 0x0005#16)) [] := by decide

end Sys2Proof.Tests
end

section
/-! SUPPORT. The flags and `ip` (10_state.md): what reads them, what writes them, and the statements O14, O31 and
O44. -/

namespace Sys2Proof.Machine

/-! ## Register accesses -/

/-- Settles O14: a word read is the slot of the index, and a word write changes that slot alone. -/
theorem wordRegisterAccessIsTheWholeSlot : Obligations.WordRegisterAccessIsTheWholeSlot := by
  intro index v r
  refine ⟨rfl, regWrite_word_slot index v r, fun j hj => ?_⟩
  exact regWrite_get_other ⟨index, .word⟩ v r hj

/-! ## What a store leaves unchanged -/

@[simp] theorem storeOperand_ip (o : Operand) (v : Word) (s : State) : (storeOperand o v s).ip = s.ip := by
  cases o with
  | memory m => obtain ⟨_, _, _, w⟩ := m; cases w <;> rfl
  | _ => rfl

@[simp] theorem storeOperand_zf (o : Operand) (v : Word) (s : State) : (storeOperand o v s).zf = s.zf := by
  cases o with
  | memory m => obtain ⟨_, _, _, w⟩ := m; cases w <;> rfl
  | _ => rfl

@[simp] theorem storeOperand_sf (o : Operand) (v : Word) (s : State) : (storeOperand o v s).sf = s.sf := by
  cases o with
  | memory m => obtain ⟨_, _, _, w⟩ := m; cases w <;> rfl
  | _ => rfl

/-! ## A state with other flags -/

/-- R24: the state with these two flags. -/
def State.withFlags (s : State) (x y : Bool) : State := { s with zf := x, sf := y }

theorem outOfRange_withFlags (p : Place) (s : State) (x y : Bool) :
    outOfRange p (s.withFlags x y) = outOfRange p s := rfl

theorem sourceOutOfRange_withFlags (v : Source) (s : State) (x y : Bool) :
    sourceOutOfRange v (s.withFlags x y) = sourceOutOfRange v s := rfl

theorem operandValue_withFlags (o : Operand) (s : State) (x y : Bool) :
    operandValue o (s.withFlags x y) = operandValue o s := rfl

theorem setFlags_withFlags (s : State) (x y : Bool) (w : Width) (res : Word) :
    (s.withFlags x y).setFlags w res = s.setFlags w res := rfl

/-- A store carries the flags through. -/
theorem storeOperand_withFlags (o : Operand) (v : Word) (s : State) (x y : Bool) :
    storeOperand o v (s.withFlags x y) = (storeOperand o v s).withFlags x y := by
  cases o with
  | memory m => obtain ⟨_, _, _, w⟩ := m; cases w <;> rfl
  | _ => rfl

/-- R25: a `mov`, faulting or not, carries the flags through and does not read them. -/
theorem mov_withFlags (dst : Place) (src : Source) (s : State) (x y : Bool) :
    mov dst src (s.withFlags x y) = mapNext (fun t => t.withFlags x y) (mov dst src s) := by
  rw [mov_eq, mov_eq, outOfRange_withFlags, sourceOutOfRange_withFlags]
  split
  · rfl
  · rw [operandValue_withFlags, storeOperand_withFlags, mapNext_next]

/-- R25, R130: the state an ALU operation leaves does not depend on the flags it found, since it writes both last. -/
theorem aluState_withFlags (op : AluOp) (dst : Place) (src : Source) (s : State) (x y : Bool) :
    aluState op dst src (s.withFlags x y) = aluState op dst src s := by
  simp only [aluState, operandValue_withFlags, storeOperand_withFlags]
  split
  · exact setFlags_withFlags _ x y _ _
  · exact setFlags_withFlags s x y _ _

/-- R25: an ALU operation that raises no fault has an outcome without a trace of the old flags. -/
theorem alu_withFlags (op : AluOp) {dst : Place} {src : Source} {s : State} (x y : Bool)
    (h : (outOfRange dst s || sourceOutOfRange src s) = false) :
    alu op dst src (s.withFlags x y) = alu op dst src s := by
  simp only [alu_eq, outOfRange_withFlags, sourceOutOfRange_withFlags, h, aluState_withFlags, Bool.false_eq_true,
    if_false]

/-! ## jne -/

theorem execJne_of_set {s : State} (d : Byte) (h : s.zf = true) : execJne d s = .next s := by
  simp [execJne, h]

theorem execJne_of_clear {s : State} (d : Byte) (h : s.zf = false) :
    execJne d s = .next (jumpTo (branchTarget s d) s) := by
  simp [execJne, h]

@[simp] theorem jumpTo_ip (t : Int) (s : State) : (jumpTo t s).ip = BitVec.ofInt 16 t := by
  simp only [jumpTo]; split <;> rfl

@[simp] theorem jumpTo_zf (t : Int) (s : State) : (jumpTo t s).zf = s.zf := by
  simp only [jumpTo]; split <;> rfl

@[simp] theorem jumpTo_sf (t : Int) (s : State) : (jumpTo t s).sf = s.sf := by
  simp only [jumpTo]; split <;> rfl

theorem jumpTo_withSf (t : Int) (s : State) (y : Bool) :
    jumpTo t { s with sf := y } = { jumpTo t s with sf := y } := by
  simp only [jumpTo]; split <;> rfl

/-- R25: `jne` carries `SF` through and does not read it. -/
theorem execJne_withSf (d : Byte) (s : State) (y : Bool) :
    execJne d { s with sf := y } = mapNext (fun t => { t with sf := y }) (execJne d s) := by
  rcases Bool.eq_false_or_eq_true s.zf with hz | hz
  · rw [execJne_of_set d hz, execJne_of_set d (s := { s with sf := y }) hz, mapNext_next]
  · rw [execJne_of_clear d hz, execJne_of_clear d (s := { s with sf := y }) hz, mapNext_next, jumpTo_withSf]
    rfl

/-- R151: a displacement other than 0, which lies in `-128..127`, moves `ip` modulo 65536. -/
theorem branchTarget_ne_ip {d : Byte} (hd : d ≠ 0x00#8) (s : State) :
    BitVec.ofInt 16 (branchTarget s d) ≠ s.ip := by
  intro h
  have hnat := congrArg BitVec.toNat h
  have hne : d.toNat ≠ 0 := fun h0 => hd (BitVec.eq_of_toNat_eq h0)
  have hd8 := d.isLt
  have hip := s.ip.isLt
  rw [BitVec.toNat_ofInt, branchTarget, BitVec.toInt_eq_toNat_cond] at hnat
  split at hnat <;> omega

/-! ## The dispatch -/

/-- R105, R120: a `mov` runs `mov` on its operands, in every state. -/
theorem exec_of_mov {i : Instr} {dst : Place} {src : Source} (hd : i.dataOperands = some (dst, src))
    (hm : i.mnemonic = .mov) (s : State) : exec i s = mov dst src s := by
  rcases exec_cases i s with ⟨_, _, hd', -, he⟩ | ⟨_, _, -, ha, -⟩ | ⟨_, rfl, -⟩ | ⟨-, -, hn, -⟩
  · cases hd.symm.trans hd'
    exact he
  · rw [hm] at ha; cases ha
  · cases hm
  · cases hd.symm.trans hn

/-- R105, R130: an ALU instruction runs its operation on its operands, in every state. -/
theorem exec_of_alu {i : Instr} {dst : Place} {src : Source} (hd : i.dataOperands = some (dst, src))
    (ha : i.mnemonic.isAlu = true) (s : State) : exec i s = alu (aluOpOf i.mnemonic) dst src s := by
  rcases exec_cases i s with ⟨_, _, -, hm, -⟩ | ⟨_, _, hd', -, he⟩ | ⟨_, rfl, -⟩ | ⟨-, -, hn, -⟩
  · rw [hm] at ha; cases ha
  · cases hd.symm.trans hd'
    exact he
  · cases ha
  · cases hd.symm.trans hn

/-- R105, R152: a branch other than `jne` has no effect, in any state. -/
theorem exec_of_inert {i : Instr} (hb : i.mnemonic.isBranch = true) (hj : i.mnemonic ≠ .jne) (s : State) :
    exec i s = .next s := by
  rcases exec_cases i s with ⟨_, _, -, hm, -⟩ | ⟨_, _, -, ha, -⟩ | ⟨_, rfl, -⟩ | ⟨-, -, -, he⟩
  · rw [hm] at hb; cases hb
  · simp [Mnemonic.isBranch, Mnemonic.isData, ha] at hb
  · exact absurd rfl hj
  · exact he

/-- R25: an ALU instruction that raises no fault does not read the flags. -/
theorem exec_withFlags_of_alu {i : Instr} {s : State} (x y : Bool) (ha : i.mnemonic.isAlu = true)
    (hf : raisesMemFault i s = false) : exec i (s.withFlags x y) = exec i s := by
  rcases exec_cases i s with ⟨_, _, -, hm, -⟩ | ⟨dst, src, hd, -, -⟩ | ⟨_, rfl, -⟩ | ⟨hb, -, -, -⟩
  · rw [hm] at ha; cases ha
  · rw [raisesMemFault_of_data hd] at hf
    rw [exec_of_alu hd ha, exec_of_alu hd ha, alu_withFlags _ x y hf]
  · cases ha
  · simp [Mnemonic.isBranch, Mnemonic.isData, ha] at hb

/-- R25: `mov` and the branches other than `jne` carry the flags through and do not read them. -/
theorem exec_withFlags_of_not_reader {i : Instr} (x y : Bool) (ha : i.mnemonic.isAlu = false)
    (hj : i.mnemonic ≠ .jne) (s : State) :
    exec i (s.withFlags x y) = mapNext (fun t => t.withFlags x y) (exec i s) := by
  rcases exec_cases i s with ⟨dst, src, hd, hm, -⟩ | ⟨_, _, -, ha', -⟩ | ⟨_, rfl, -⟩ | ⟨hb, -, -, -⟩
  · rw [exec_of_mov hd hm, exec_of_mov hd hm, mov_withFlags]
  · rw [ha] at ha'; cases ha'
  · exact absurd rfl hj
  · rw [exec_of_inert hb hj, exec_of_inert hb hj, mapNext_next]

/-- R25, R151: `jne` reads `ZF`: only with `ZF` clear does a displacement other than 0 move `ip`. -/
theorem execJne_reads_zf {d : Byte} (hd : d ≠ 0x00#8) (s : State) (x : Bool) :
    mapNext (fun t => { t with zf := x }) (execJne d { s with zf := true }) ≠
      mapNext (fun t => { t with zf := x }) (execJne d { s with zf := false }) := by
  rw [execJne_of_set d rfl, execJne_of_clear d rfl]
  intro h
  have hip : s.ip = BitVec.ofInt 16 (branchTarget s d) := by
    injection h with h
    simpa [branchTarget] using congrArg State.ip h
  exact branchTarget_ne_ip hd s hip.symm

/-- R120: the states a `mov` can end in. -/
theorem mov_next_cases {dst : Place} {src : Source} {s t : State} (h : mov dst src s = .next t) :
    t = s.raiseFault .memOutOfRange ∨ t = storeOperand dst.operand (operandValue src.operand s) s := by
  rw [mov_eq] at h
  split at h <;> cases h
  · exact .inl rfl
  · exact .inr rfl

/-- R130: the states an ALU operation can end in. -/
theorem alu_next_cases {op : AluOp} {dst : Place} {src : Source} {s t : State} (h : alu op dst src s = .next t) :
    t = s.raiseFault .memOutOfRange ∨ t = aluState op dst src s := by
  rw [alu_eq] at h
  split at h <;> cases h
  · exact .inl rfl
  · exact .inr rfl

@[simp] theorem aluState_ip (op : AluOp) (dst : Place) (src : Source) (s : State) :
    (aluState op dst src s).ip = s.ip := by
  simp only [aluState, setFlags_ip]
  split
  · exact storeOperand_ip _ _ s
  · rfl

/-- R80: `jne` has one constructor. -/
theorem eq_jne_of_mnemonic {i : Instr} (h : i.mnemonic = .jne) : ∃ d, i = .jne d := by
  cases i with
  | jne d => exact ⟨d, rfl⟩
  | _ => cases h

/-- R25: a `jne` carries both flags through. -/
theorem execJne_flags {d : Byte} {s t : State} (h : execJne d s = .next t) : t.zf = s.zf ∧ t.sf = s.sf := by
  cases hz : s.zf with
  | true => rw [execJne_of_set d hz] at h; cases h; exact ⟨hz, rfl⟩
  | false => rw [execJne_of_clear d hz] at h; cases h; exact ⟨by rw [jumpTo_zf, hz], jumpTo_sf _ s⟩

/-- R25: only `add`, `sub` and `cmp` write the flags. -/
theorem exec_flags_of_not_alu {i : Instr} {s t : State} (hi : i.mnemonic.isAlu = false) (h : exec i s = .next t) :
    t.zf = s.zf ∧ t.sf = s.sf := by
  rcases exec_cases i s with ⟨dst, src, -, -, he⟩ | ⟨dst, src, -, ha, -⟩ | ⟨d, -, he⟩ | ⟨-, -, -, he⟩
  · rw [he] at h
    rcases mov_next_cases h with rfl | rfl <;> simp
  · rw [hi] at ha; cases ha
  · rw [he] at h
    exact execJne_flags h
  · rw [he] at h; cases h; exact ⟨rfl, rfl⟩

/-- Settles O31: the flags are written by `add`, `sub`, `cmp` and read by `jne` alone. Each kind of instruction
has its lemma about a state with other flags. -/
theorem flagsAreWrittenByAluAndReadByJne : Obligations.FlagsAreWrittenByAluAndReadByJne := by
  intro i s x y
  refine ⟨exec_withFlags_of_alu x y, fun ha hj => exec_withFlags_of_not_reader x y ha hj s, fun hm => ?_, ?_,
    fun t => exec_flags_of_not_alu⟩
  · obtain ⟨d, rfl⟩ := eq_jne_of_mnemonic hm
    exact execJne_withSf d s y
  · rintro d rfl hd
    exact execJne_reads_zf hd s x

/-! ## ip -/

/-- R21, R151: an instruction leaves the advanced `ip` alone, unless it is a taken `jne`. -/
theorem exec_ip {i : Instr} {s t : State} (h : exec i s = .next t) :
    t.ip = s.ip ∨ ∃ d, i = .jne d ∧ s.zf = false := by
  rcases exec_cases i s with ⟨dst, src, -, -, he⟩ | ⟨dst, src, -, -, he⟩ | ⟨d, rfl, he⟩ | ⟨-, -, -, he⟩
  · rw [he] at h
    rcases mov_next_cases h with rfl | rfl <;> simp
  · rw [he] at h
    rcases alu_next_cases h with rfl | rfl <;> simp
  · cases hz : s.zf with
    | true => rw [he, execJne_of_set d hz] at h; cases h; exact .inl rfl
    | false => exact .inr ⟨d, rfl, rfl⟩
  · rw [he] at h; cases h; exact .inl rfl

/-- R102: with `ip` at the end of the image there is no byte left to decode. -/
theorem decode_bytesAtIp_of_end {s : State} (h : s.ip.toNat = s.imem.length) : decode s.bytesAtIp = .truncated := by
  rw [State.bytesAtIp, h, List.drop_length, decode]

/-- R101, R104: a running machine whose bytes at `ip` decode runs the instruction with `ip` moved past those bytes. -/
theorem step_of_decode {s : State} {i : Instr} {bytes rest : List Byte} (hs : s.status = .running)
    (hl : s.imem.length ≤ Config.imemMax) (hd : decode s.bytesAtIp = .ok i rest) (hb : s.bytesAtIp = bytes ++ rest) :
    step s = exec i (s.advance bytes.length) := by
  rcases fetch_cases s with ⟨h, -⟩ | ⟨-, h, -⟩ | ⟨-, -, h, -⟩ | ⟨-, -, -, h, -⟩ | ⟨-, -, -, h, -⟩ |
    ⟨-, -, _, bytes', _, hd', hb', -, -, hf⟩
  · exact absurd hs h
  · omega
  · cases hd.symm.trans (decode_bytesAtIp_of_end h)
  · cases hd.symm.trans h
  · cases hd.symm.trans h
  · cases hd.symm.trans hd'
    have hbytes : bytes = bytes' := List.append_cancel_right (hb.symm.trans hb')
    rw [step, hf, hbytes]

/-- R21: a step that finds no instruction leaves `ip`. -/
theorem step_ip_of_decode_fails {s t : State} (hd : ∀ i rest, decode s.bytesAtIp ≠ .ok i rest)
    (h : step s = .next t) : t.ip = s.ip := by
  rcases step_next_cases h with ⟨-, rfl⟩ | ⟨-, -, ⟨-, rfl⟩ | ⟨-, -, rfl⟩ | ⟨-, -, rfl⟩ |
    ⟨i, _, rest, hok, -⟩⟩
  · rfl
  · exact raiseHalt_ip s _
  · exact raiseHalt_ip s _
  · exact raiseHalt_ip s _
  · exact absurd hok (hd i rest)

/-- Settles O44: `ip` advances past the decoded bytes, and only a taken `jne` moves it again. -/
theorem ipAdvancesAndOnlyATakenJneMovesItAgain : Obligations.IpAdvancesAndOnlyATakenJneMovesItAgain := by
  refine ⟨fun s i bytes rest => step_of_decode, fun i s t h hne => (exec_ip h).resolve_left hne, ?_⟩
  intro s t hfail
  apply step_ip_of_decode_fails
  intro i rest hok
  rcases hfail with h | h <;> cases hok.symm.trans h

end Sys2Proof.Machine
end

section
/-! SUPPORT. Addresses and the two memories (20_memory.md): the address of an operand, what an instruction leaves
unchanged in the registers and in the image, and the statements O18 and O51. -/

namespace Sys2Proof.Machine

/-! ## The effective address -/

/-- R48: a base term as a number, 0 when it is unused. -/
theorem baseValue_toNat (r : RegFile) (b : Option Slot) :
    (baseValue r b).toNat = b.elim 0 fun j => (r.get j).toNat := by
  cases b <;> rfl

/-- R48: the address is the sum of the base terms and the displacement, modulo 65536. -/
theorem effectiveAddress_toNat (m : MemAccess) (r : RegFile) :
    (effectiveAddress m r).toNat =
      (m.base1.elim 0 (fun j => (r.get j).toNat) + m.base2.elim 0 (fun j => (r.get j).toNat) + m.disp.toNat) % 65536 := by
  simp only [effectiveAddress, BitVec.toNat_add, baseValue_toNat, Nat.mod_add_mod]

/-- R48: the two base terms commute. -/
theorem effectiveAddress_swap_bases (b1 b2 : Option Slot) (disp : Word) (w : Width) (r : RegFile) :
    effectiveAddress ⟨b1, b2, disp, w⟩ r = effectiveAddress ⟨b2, b1, disp, w⟩ r := by
  simp only [effectiveAddress, BitVec.add_comm]

/-- R48: without base terms the address is the displacement. -/
theorem effectiveAddress_no_bases (disp : Word) (w : Width) (r : RegFile) :
    effectiveAddress ⟨none, none, disp, w⟩ r = disp := by
  simp only [effectiveAddress, baseValue, BitVec.zero_add]

/-- R9: the sign extension of a byte is its signed value modulo 65536. -/
theorem sext16_toNat (d : Byte) : ((sext16 d).toNat : Int) = d.toInt % 65536 := by
  rw [sext16_eq_ofInt, BitVec.toNat_ofInt]
  omega

/-! ## Registers an instruction leaves unchanged -/

/-- R107: a store that changes a slot is one into a register of that slot. -/
theorem storeOperand_changed_slot {o : Operand} {v : Word} {s : State} {j : Slot}
    (h : (storeOperand o v s).regs.get j ≠ s.regs.get j) : ∃ a, o = .register a ∧ accessSlot a = j := by
  cases o with
  | register a => exact ⟨a, rfl, by_contra fun hj => h (regWrite_get_other a v s.regs (Ne.symm hj))⟩
  | memory m => obtain ⟨_, _, _, w⟩ := m; cases w <;> exact absurd rfl h
  | immediate x => exact absurd rfl h
  | none => exact absurd rfl h

/-- R130: an ALU operation that changes a slot has its destination there. -/
theorem aluState_changed_slot {op : AluOp} {dst : Place} {src : Source} {s : State} {j : Slot}
    (h : (aluState op dst src s).regs.get j ≠ s.regs.get j) : ∃ a, dst.operand = .register a ∧ accessSlot a = j := by
  simp only [aluState, setFlags_regs] at h
  split at h
  · exact storeOperand_changed_slot h
  · exact absurd rfl h

@[simp] theorem jumpTo_regs (t : Int) (s : State) : (jumpTo t s).regs = s.regs := by
  simp only [jumpTo]; split <;> rfl

/-- R151: the states a `jne` can end in. -/
theorem execJne_next_cases {d : Byte} {s t : State} (h : execJne d s = .next t) :
    t = s ∨ t = jumpTo (branchTarget s d) s := by
  cases hz : s.zf with
  | true => rw [execJne_of_set d hz] at h; cases h; exact .inl rfl
  | false => rw [execJne_of_clear d hz] at h; cases h; exact .inr rfl

/-- R11 to R14, R105: an instruction changes no register but its register destination. -/
theorem exec_changed_slot {i : Instr} {s t : State} {j : Slot} (h : exec i s = .next t)
    (hj : t.regs.get j ≠ s.regs.get j) : ∃ a, i.dst = .register a ∧ accessSlot a = j := by
  rcases exec_cases i s with ⟨dst, src, hd, -, he⟩ | ⟨dst, src, hd, -, he⟩ | ⟨d, -, he⟩ | ⟨-, -, -, he⟩
  · rw [he] at h
    rw [(operands_of_data hd).1]
    rcases mov_next_cases h with rfl | rfl
    · exact absurd rfl hj
    · exact storeOperand_changed_slot hj
  · rw [he] at h
    rw [(operands_of_data hd).1]
    rcases alu_next_cases h with rfl | rfl
    · exact absurd rfl hj
    · exact aluState_changed_slot hj
  · rw [he] at h
    rcases execJne_next_cases h with rfl | rfl
    · exact absurd rfl hj
    · rw [jumpTo_regs] at hj; exact absurd rfl hj
  · rw [he] at h; cases h; exact absurd rfl hj

/-- Settles O18: the address is the sum modulo 65536, form by form, and addressing changes no register. -/
theorem effectiveAddressIsTheSumModulo65536 : Obligations.EffectiveAddressIsTheSumModulo65536 := by
  intro r b1 b2 disp w rm d
  refine ⟨effectiveAddress_toNat _ r, effectiveAddress_swap_bases b1 b2 disp w r, ?noDisp, ?direct, ?disp8, ?disp16,
    fun i s t j => exec_changed_slot⟩
  case noDisp => rintro _ ⟨⟩; exact ⟨effectiveAddress_toNat _ r, rfl⟩
  case direct => rintro _ ⟨⟩; exact ⟨effectiveAddress_no_bases disp w r, rfl⟩
  case disp8 =>
    rintro _ ⟨⟩
    refine ⟨?_, rfl⟩
    rw [effectiveAddress_toNat, Int.natCast_mod, Int.natCast_add, sext16_toNat]
    exact Int.add_emod_emod ..
  case disp16 => rintro _ ⟨⟩; exact ⟨effectiveAddress_toNat _ r, rfl⟩

/-! ## Instruction memory -/

@[simp] theorem storeOperand_imem (o : Operand) (v : Word) (s : State) : (storeOperand o v s).imem = s.imem := by
  cases o with
  | memory m => obtain ⟨_, _, _, w⟩ := m; cases w <;> rfl
  | _ => rfl

@[simp] theorem aluState_imem (op : AluOp) (dst : Place) (src : Source) (s : State) :
    (aluState op dst src s).imem = s.imem := by
  simp only [aluState, setFlags_imem]
  split
  · exact storeOperand_imem _ _ s
  · rfl

@[simp] theorem jumpTo_imem (t : Int) (s : State) : (jumpTo t s).imem = s.imem := by
  simp only [jumpTo]; split <;> rfl

/-- R54: no instruction changes the image; a store goes to data memory. -/
theorem exec_imem {i : Instr} {s t : State} (h : exec i s = .next t) : t.imem = s.imem := by
  rcases exec_cases i s with ⟨dst, src, -, -, he⟩ | ⟨dst, src, -, -, he⟩ | ⟨d, -, he⟩ | ⟨-, -, -, he⟩
  · rw [he] at h
    rcases mov_next_cases h with rfl | rfl <;> simp
  · rw [he] at h
    rcases alu_next_cases h with rfl | rfl <;> simp
  · rw [he] at h
    rcases execJne_next_cases h with rfl | rfl <;> simp
  · rw [he] at h; cases h; rfl

/-- R41, R54: no step changes the image. -/
theorem step_imem {s t : State} (h : step s = .next t) : t.imem = s.imem := by
  rcases step_next_cases h with ⟨-, rfl⟩ | ⟨-, -, ⟨-, rfl⟩ | ⟨-, -, rfl⟩ | ⟨-, -, rfl⟩ |
    ⟨_, _, _, -, -, -, -, he⟩⟩
  · rfl
  · exact raiseHalt_imem s _
  · exact raiseHalt_imem s _
  · exact raiseHalt_imem s _
  · exact (exec_imem he).trans (advance_imem s _)

/-- R54, R101: `fetch` looks at `status`, `ip` and the image, none of which is data memory. -/
theorem fetch_withDmem (s : State) (m : Memory) : fetch { s with dmem := m } = fetch s := rfl

/-- Settles O51: a step keeps the image, and fetch does not depend on data memory. -/
theorem storesAreNeverSeenByFetch : Obligations.StoresAreNeverSeenByFetch :=
  ⟨fun _ _ => step_imem, fetch_withDmem⟩

end Sys2Proof.Machine
end

section
/-! SUPPORT. The stops of the control loop (40_control_loop.md): a terminal state, the end of the image, and the
statements O47 and O45. -/

namespace Sys2Proof.Machine

/-! ## Terminal states -/

/-- R101, R113: a step of a machine that is not running does nothing. -/
theorem step_of_not_running {s : State} (h : s.status ≠ .running) : step s = .next s := by
  rcases fetch_cases s with ⟨-, hf⟩ | ⟨hr, -⟩ | ⟨hr, -⟩ | ⟨hr, -⟩ | ⟨hr, -⟩ | ⟨hr, -⟩
  · rw [step, hf]
  all_goals exact absurd hr h

/-- R112: a state that a step keeps is kept by any number of steps. -/
theorem runSteps_of_step_self {s : State} (h : step s = .next s) (k : Nat) : runSteps k s = .next s := by
  induction k with
  | zero => exact runSteps_zero s
  | succ k ih => rw [runSteps_succ h, ih]

/-- Settles O47: no step changes a terminal state, so no run does, and reset gives a running machine. -/
theorem terminalStatesStay : Obligations.TerminalStatesStay := by
  intro s hterm
  have hne : s.status ≠ .running := by rcases hterm with h | h <;> simp [h]
  have hstep : step s = .next s := step_of_not_running hne
  exact ⟨hstep, runSteps_of_step_self hstep, resetCore_status s, resetCore_haltReason s⟩

/-! ## The end of the image -/

/-- R102: at the end of the image a running machine halts. The image is then a legal one, since `ip` has 16 bits, so
it is not refused. -/
theorem step_of_end {s : State} (hs : s.status = .running) (h : s.ip.toNat = s.imem.length) :
    step s = .next (s.raiseHalt .endOfProgram) := by
  have hlegal : s.imem.length ≤ Config.imemMax := h ▸ Nat.le_of_lt_succ s.ip.isLt
  rcases fetch_cases s with ⟨hr, -⟩ | ⟨-, hlong, -⟩ | ⟨-, -, -, hf⟩ | ⟨-, -, hne, -⟩ | ⟨-, -, hne, -⟩ |
    ⟨-, -, _, _, _, hd, -⟩
  · exact absurd hs hr
  · exact absurd hlegal (Nat.not_le_of_lt hlong)
  · rw [step, hf]
  · exact absurd h hne
  · exact absurd h hne
  · cases hd.symm.trans (decode_bytesAtIp_of_end h)

/-- Settles O45: the halt at the end of the image; the empty image ends where `ip` starts. -/
theorem endOfProgramHalts : Obligations.EndOfProgramHalts :=
  ⟨fun _ => step_of_end, step_of_end (s := State.boot []) rfl rfl⟩

end Sys2Proof.Machine
end

section
/-! SUPPORT. The encoding table (30_encoding.md section 3): no two rows match the same bytes, what each row says of the
instructions built from it, and the statement O5. -/

namespace Sys2Proof

/-! ## Two rows never match the same bytes -/

/-- R62: of two conditions that hold of one byte, each pattern agrees with the other on the bits both test. -/
theorem MatchCondition.patterns_agree {c d : MatchCondition} {b : Byte} (hc : c.holds b = true)
    (hd : d.holds b = true) : c.pattern &&& d.mask = d.pattern &&& c.mask := by
  simp only [MatchCondition.holds, beq_iff_eq] at hc hd
  rw [← hc, ← hd, BitVec.and_assoc, BitVec.and_assoc, BitVec.and_comm c.mask]

/-- Two conditions whose patterns differ on a bit both test. -/
def MatchCondition.conflicts (c d : MatchCondition) : Bool := c.pattern &&& d.mask != d.pattern &&& c.mask

/-- Two rows that differ in the first byte or in the second. -/
def Encoding.conflicts (e f : Encoding) : Bool :=
  e.primary.conflicts f.primary || e.secondary.conflicts f.secondary

/-- R65: conflicting rows do not both match. -/
theorem Encoding.not_holds_of_conflicts {e f : Encoding} {b0 b1 : Byte} (h : e.conflicts f = true)
    (he : e.holds b0 b1 = true) : f.holds b0 b1 = false := by
  by_contra hf
  simp only [Encoding.holds, Bool.not_eq_false, Bool.and_eq_true] at he hf
  simp only [Encoding.conflicts, MatchCondition.conflicts, Bool.or_eq_true, bne_iff_ne] at h
  rcases h with h | h
  · exact h (MatchCondition.patterns_agree he.1 hf.1)
  · exact h (MatchCondition.patterns_agree he.2 hf.2)

/-- R64: any two rows of the table conflict. -/
theorem table_conflicts : table.Pairwise fun e f => e.conflicts f = true := by decide

/-- Settles O5: the rows that match are pairwise in conflict, so there are no two of them. -/
theorem atMostOneTableRowMatches : Obligations.AtMostOneTableRowMatches := by
  intro b0 b1
  have hpair := table_conflicts.filter fun e => e.holds b0 b1
  have hall : ∀ e ∈ table.filter (fun e => e.holds b0 b1), e.holds b0 b1 = true := fun e he => (List.mem_filter.mp he).2
  generalize table.filter (fun e => e.holds b0 b1) = rows at hpair hall
  match rows, hpair, hall with
  | [], _, _ => simp
  | [e], _, _ => simp
  | e :: f :: _, hpair, hall =>
    have hconf : e.conflicts f = true := (List.pairwise_cons.mp hpair).1 f (by simp)
    have hf : f.holds b0 b1 = false := Encoding.not_holds_of_conflicts hconf (hall e (by simp))
    exact absurd (hall f (by simp)) (by simp [hf])

/-- R65: a row of the table that matches is the one the matcher finds. -/
theorem findRow_eq {e : Encoding} {b0 b1 : Byte} (he : e ∈ table) (hp : e.primary.holds b0 = true)
    (hs : e.secondary.holds b1 = true) : findRow b0 b1 = some e := by
  have hmatch : e.holds b0 b1 = true := by simp [Encoding.holds, hp, hs]
  have hsome : (findRow b0 b1).isSome = true := List.find?_isSome.mpr ⟨e, he, hmatch⟩
  obtain ⟨f, hf⟩ := Option.isSome_iff_exists.mp hsome
  obtain ⟨hfe, hfp, hfs⟩ := findRow_some hf
  have hone := atMostOneTableRowMatches b0 b1
  have hfm : f ∈ table.filter (fun e => e.holds b0 b1) :=
    List.mem_filter.mpr ⟨hfe, by simp [Encoding.holds, hfp, hfs]⟩
  have hem : e ∈ table.filter (fun e => e.holds b0 b1) := List.mem_filter.mpr ⟨he, hmatch⟩
  obtain ⟨g, hg⟩ := List.length_eq_one_iff.mp (Nat.le_antisymm hone (List.length_pos_of_mem hem))
  rw [hg, List.mem_singleton] at hfm hem
  rw [hf, hfm, hem]

/-! ## What a row decodes to and encodes -/

/-- R64: what a row of the table says of the instructions built from it. Its conditions test all bits of the bytes but
the fields of its shape, and every instruction it builds has its mnemonic and is encoded with its pattern. -/
def Encoding.Describes (e : Encoding) : Prop :=
  e.primary.pattern &&& e.primary.mask = e.primary.pattern ∧
  match e.layout with
  | .rmReg build => e.primary.mask = 0xFC#8 ∧ e.secondary = .always ∧ ∀ d w reg rm,
      (build d w reg rm).mnemonic = e.mnemonic ∧ (build d w reg rm).wellFormed = rm.wellFormed ∧
      encode (build d w reg rm) = encodeRmReg e.primary.pattern d w reg rm
  | .immRmMov build => e.primary.mask = 0xFE#8 ∧ e.secondary = .always ∧ ∀ w ign rm imm,
      (build w ign rm imm).mnemonic = e.mnemonic ∧
      (build w ign rm imm).wellFormed = (rm.wellFormed && imm.fitsWidth w) ∧
      encode (build w ign rm imm) = (e.primary.pattern ||| w.bit) :: rm.encode ign ++ imm.encode
  | .immRm build => e.primary = ⟨0xFC#8, 0x80#8⟩ ∧
      ∃ op : BitVec 3, e.secondary = ⟨0x38#8, modRegRm 0#2 op 0#3⟩ ∧ ∀ s w rm imm,
        (build s w rm imm).mnemonic = e.mnemonic ∧
        (build s w rm imm).wellFormed = (rm.wellFormed && imm.fitsSignExtend s w) ∧
        encode (build s w rm imm) = encodeImmRm op s w rm imm
  | .immAcc build => e.primary.mask = 0xFE#8 ∧ e.secondary = .always ∧ ∀ w imm,
      (build w imm).mnemonic = e.mnemonic ∧ (build w imm).wellFormed = imm.fitsWidth w ∧
      encode (build w imm) = encodeImmAcc e.primary.pattern w imm
  | .immReg build => e.primary.mask = 0xF0#8 ∧ e.secondary = .always ∧ ∀ w reg imm,
      (build w reg imm).mnemonic = e.mnemonic ∧ (build w reg imm).wellFormed = imm.fitsWidth w ∧
      encode (build w reg imm) = (e.primary.pattern ||| w.bit3 ||| reg.setWidth 8) :: imm.encode
  | .branch build => e.primary.mask = 0xFF#8 ∧ e.secondary = .always ∧ ∀ d,
      (build d).mnemonic = e.mnemonic ∧ (build d).wellFormed = true ∧ encode (build d) = [e.primary.pattern, d]

theorem dataRows_describe : ∀ e ∈ dataRows, e.Describes := by
  simp only [dataRows, List.forall_mem_cons]
  refine ⟨⟨rfl, rfl, rfl, fun _ _ _ _ => ⟨rfl, rfl, rfl⟩⟩, ⟨rfl, rfl, rfl, fun _ _ _ _ => ⟨rfl, rfl, rfl⟩⟩,
    ⟨rfl, rfl, rfl, fun _ _ _ => ⟨rfl, rfl, rfl⟩⟩, ⟨rfl, rfl, rfl, fun _ _ _ _ => ⟨rfl, rfl, rfl⟩⟩,
    ⟨rfl, rfl, rfl, fun _ _ _ _ => ⟨rfl, rfl, rfl⟩⟩, ⟨rfl, rfl, rfl, fun _ _ _ _ => ⟨rfl, rfl, rfl⟩⟩,
    ⟨rfl, rfl, 0#3, rfl, fun _ _ _ _ => ⟨rfl, rfl, rfl⟩⟩, ⟨rfl, rfl, 5#3, rfl, fun _ _ _ _ => ⟨rfl, rfl, rfl⟩⟩,
    ⟨rfl, rfl, 7#3, rfl, fun _ _ _ _ => ⟨rfl, rfl, rfl⟩⟩, ⟨rfl, rfl, rfl, fun _ _ => ⟨rfl, rfl, rfl⟩⟩,
    ⟨rfl, rfl, rfl, fun _ _ => ⟨rfl, rfl, rfl⟩⟩, ⟨rfl, rfl, rfl, fun _ _ => ⟨rfl, rfl, rfl⟩⟩, by simp⟩

/-- R75: a row of the shape `BRANCH` whose first byte is `p`. -/
theorem describes_branch {m : Mnemonic} {p : Byte} {build : Byte → Instr} (hp : p &&& 0xFF#8 = p)
    (h : ∀ d, (build d).mnemonic = m ∧ (build d).wellFormed = true ∧ encode (build d) = [p, d]) :
    Encoding.Describes ⟨m, ⟨0xFF#8, p⟩, .always, .branch build⟩ := ⟨hp, rfl, rfl, h⟩

theorem jumpRows_describe : ∀ e ∈ jumpRows, e.Describes := by
  simp only [jumpRows, List.forall_mem_cons]
  refine ⟨?_, ?_, ?_, ?_, ?_, ?_, ?_, ?_, ?_, ?_, ?_, ?_, ?_, ?_, ?_, ?_, by simp⟩
  all_goals exact describes_branch rfl fun _ => ⟨rfl, rfl, rfl⟩

theorem loopRows_describe : ∀ e ∈ loopRows, e.Describes := by
  simp only [loopRows, List.forall_mem_cons]
  refine ⟨?_, ?_, ?_, ?_, by simp⟩
  all_goals exact describes_branch rfl fun _ => ⟨rfl, rfl, rfl⟩

/-- R64: every row of the table describes the instructions built from it. -/
theorem table_describes : ∀ e ∈ table, e.Describes :=
  List.forall_mem_append.mpr ⟨List.forall_mem_append.mpr ⟨dataRows_describe, jumpRows_describe⟩, loopRows_describe⟩

/-! ## The first byte -/

/-- R68: a fact about every byte, from its bits in groups of two, three and three. -/
theorem forall_byte {P : Byte → Prop} (h : ∀ m k r, P (modRegRm m k r)) (b : Byte) : P b :=
  modRegRm_fields b ▸ h _ _ _

/-- R67: the bits of the first byte that the shapes `RM_REG` and `IMM_RM` do not test are `D` or `S`, and `W`. -/
theorem firstByte_flag_width (b : Byte) :
    (b &&& 0xFC#8) ||| bit1 (fieldD.flag b) ||| (fieldW.width b).bit = b := by
  revert b; exact forall_byte (by decide)

/-- R67: the bit of the first byte that the shape `IMM_ACC` does not test is `W`. -/
theorem firstByte_width (b : Byte) : (b &&& 0xFE#8) ||| (fieldW.width b).bit = b := by
  revert b; exact forall_byte (by decide)

/-- R67: the bits of the first byte that the shape `IMM_REG` does not test are `W` and `reg`. -/
theorem firstByte_short (b : Byte) :
    (b &&& 0xF0#8) ||| (fieldShortW.width b).bit3 ||| (fieldShortReg.code b).setWidth 8 = b := by
  revert b; exact forall_byte (by decide)

/-- R67: the fields of a first byte put together from a pattern, `D` or `S`, and `W`. -/
theorem fields_of_flag_width (p : Byte) (hp : p &&& 0xFC#8 = p) (d : Bool) (w : Width) :
    (p ||| bit1 d ||| w.bit) &&& 0xFC#8 = p ∧ fieldD.flag (p ||| bit1 d ||| w.bit) = d ∧
      fieldW.width (p ||| bit1 d ||| w.bit) = w := by
  cases d <;> cases w <;> (revert p; exact forall_byte (by decide))

theorem fields_of_width (p : Byte) (hp : p &&& 0xFE#8 = p) (w : Width) :
    (p ||| w.bit) &&& 0xFE#8 = p ∧ fieldW.width (p ||| w.bit) = w := by
  cases w <;> (revert p; exact forall_byte (by decide))

theorem fields_of_short (reg : BitVec 3) (p : Byte) (hp : p &&& 0xF0#8 = p) (w : Width) :
    (p ||| w.bit3 ||| reg.setWidth 8) &&& 0xF0#8 = p ∧ fieldShortW.width (p ||| w.bit3 ||| reg.setWidth 8) = w ∧
      fieldShortReg.code (p ||| w.bit3 ||| reg.setWidth 8) = reg := by
  cases w <;> (revert p; refine forall_byte ?_; revert reg; decide)

end Sys2Proof
end

section
/-! SUPPORT. The round trip of the decoder and the encoder (30_encoding.md), shape by shape, and the statements O2, O3
and O9. -/

namespace Sys2Proof

@[simp] theorem always_holds (b : Byte) : MatchCondition.always.holds b = true := by
  simp [MatchCondition.holds, MatchCondition.always]

/-! ## From bytes to an instruction and back -/

/-- R68, R72: the mask of the rows of `80` to `83` keeps the middle field of the second byte. -/
theorem middle_of_modRegRm (m : BitVec 2) (k r : BitVec 3) : modRegRm m k r &&& 0x38#8 = modRegRm 0#2 k 0#3 := by
  revert m k r; decide

/-- R67: `S` stands where `D` does. -/
theorem fieldS_eq_fieldD : fieldS = fieldD := rfl

/-- R72: the condition on the second byte of `80` to `83` is on its middle field. -/
theorem middle_holds_iff (op : BitVec 3) (b : Byte) :
    MatchCondition.holds ⟨0x38#8, modRegRm 0#2 op 0#3⟩ b = true ↔ fieldReg.code b = op := by
  rw [MatchCondition.holds, beq_iff_eq, ← modRegRm_fields b, middle_of_modRegRm, modRegRm_fields]
  exact ⟨fun h => by simpa using congrArg fieldReg.code h, fun h => by rw [h]⟩

/-- R73, R74: an immediate read at the size of a width fits the width. -/
theorem takeImm_ofWidth {w : Width} {bs rest : List Byte} {imm : ImmField}
    (h : takeImm (immBytesOfWidth w) bs = some (imm, rest)) : imm.fitsWidth w = true ∧ bs = imm.encode ++ rest := by
  obtain ⟨htwo, hbs⟩ := takeImm_some h
  refine ⟨?_, hbs⟩
  rw [ImmField.fitsWidth, htwo]
  cases w <;> rfl

/-- R71: an immediate of `mov` fits the width. -/
theorem takeImm_mov {w : Width} {bs rest : List Byte} {imm : ImmField}
    (h : takeImm (immBytes true false w) bs = some (imm, rest)) : imm.fitsWidth w = true ∧ bs = imm.encode ++ rest := by
  obtain ⟨htwo, hbs⟩ := takeImm_some h
  refine ⟨?_, hbs⟩
  rw [ImmField.fitsWidth, htwo]
  cases w <;> rfl

/-- R71: an immediate of `add`, `sub`, `cmp` fits the width and the sign-extend bit. -/
theorem takeImm_signExtend {s : Bool} {w : Width} {bs rest : List Byte} {imm : ImmField}
    (h : takeImm (immBytes false s w) bs = some (imm, rest)) :
    imm.fitsSignExtend s w = true ∧ bs = imm.encode ++ rest := by
  obtain ⟨htwo, hbs⟩ := takeImm_some h
  refine ⟨?_, hbs⟩
  rw [ImmField.fitsSignExtend, htwo]
  cases w <;> cases s <;> rfl

/-- R65, R87: what the routine of a matching row gives back is an instruction of that row, and the bytes are its
encoding. -/
theorem parse_sound {e : Encoding} {b0 b1 : Byte} {t rest : List Byte} {i : Instr} (he : e.Describes)
    (hp : e.primary.holds b0 = true) (hs : e.secondary.holds b1 = true)
    (h : e.layout.parse b0 (b1 :: t) = some (i, rest)) :
    i.mnemonic = e.mnemonic ∧ i.wellFormed = true ∧ b0 :: b1 :: t = encode i ++ rest := by
  obtain ⟨m, ⟨mask, p⟩, second, l⟩ := e
  obtain ⟨-, he⟩ := he
  have hb0 : b0 &&& mask = p := by simpa [MatchCondition.holds] using hp
  cases l with
  | rmReg build =>
    obtain ⟨rfl, -, hbuild⟩ := he
    obtain ⟨⟨m, rm, u⟩, hm, hi⟩ := Option.bind_eq_some_iff.mp h
    cases hi
    obtain ⟨hrm, hbytes, -⟩ := takeModRm_some hm
    obtain ⟨hmn, hwf, henc⟩ := hbuild (fieldD.flag b0) (fieldW.width b0) (fieldReg.code m) rm
    refine ⟨hmn, by rw [hwf, hrm], ?_⟩
    rw [henc, hbytes, encodeRmReg, ← hb0, firstByte_flag_width, List.cons_append]
  | immRmMov build =>
    obtain ⟨rfl, -, hbuild⟩ := he
    obtain ⟨⟨m, rm, u⟩, hm, hi⟩ := Option.bind_eq_some_iff.mp h
    obtain ⟨⟨imm, v⟩, himm, hi⟩ := Option.bind_eq_some_iff.mp hi
    cases hi
    obtain ⟨hrm, hbytes, -⟩ := takeModRm_some hm
    obtain ⟨hfits, hu⟩ := takeImm_mov himm
    obtain ⟨hmn, hwf, henc⟩ := hbuild (fieldW.width b0) (fieldReg.code m) rm imm
    refine ⟨hmn, by rw [hwf, hrm, hfits]; rfl, ?_⟩
    rw [henc, hbytes, hu, ← hb0, firstByte_width, List.cons_append, List.cons_append, List.append_assoc]
  | immRm build =>
    obtain ⟨hfirst, op, hsecond, hbuild⟩ := he
    cases hfirst
    cases (hsecond : second = _)
    obtain ⟨⟨m, rm, u⟩, hm, hi⟩ := Option.bind_eq_some_iff.mp h
    obtain ⟨⟨imm, v⟩, himm, hi⟩ := Option.bind_eq_some_iff.mp hi
    cases hi
    obtain ⟨hrm, hbytes, hhead⟩ := takeModRm_some hm
    obtain ⟨hfits, hu⟩ := takeImm_signExtend himm
    obtain ⟨hmn, hwf, henc⟩ := hbuild (fieldS.flag b0) (fieldW.width b0) rm imm
    cases hhead
    refine ⟨hmn, by rw [hwf, hrm, hfits]; rfl, ?_⟩
    rw [henc, hbytes, hu, (middle_holds_iff op b1).mp hs, encodeImmRm, ← hb0, fieldS_eq_fieldD,
      firstByte_flag_width, List.cons_append, List.cons_append, List.append_assoc]
  | immAcc build =>
    obtain ⟨rfl, -, hbuild⟩ := he
    obtain ⟨⟨imm, v⟩, himm, hi⟩ := Option.bind_eq_some_iff.mp h
    cases hi
    obtain ⟨hfits, hu⟩ := takeImm_ofWidth himm
    obtain ⟨hmn, hwf, henc⟩ := hbuild (fieldW.width b0) imm
    refine ⟨hmn, by rw [hwf, hfits], ?_⟩
    rw [henc, hu, encodeImmAcc, ← hb0, firstByte_width, List.cons_append]
  | immReg build =>
    obtain ⟨rfl, -, hbuild⟩ := he
    obtain ⟨⟨imm, v⟩, himm, hi⟩ := Option.bind_eq_some_iff.mp h
    cases hi
    obtain ⟨hfits, hu⟩ := takeImm_ofWidth himm
    obtain ⟨hmn, hwf, henc⟩ := hbuild (fieldShortW.width b0) (fieldShortReg.code b0) imm
    refine ⟨hmn, by rw [hwf, hfits], ?_⟩
    rw [henc, hu, ← hb0, firstByte_short, List.cons_append]
  | branch build =>
    obtain ⟨rfl, -, hbuild⟩ := he
    cases h
    obtain ⟨hmn, hwf, henc⟩ := hbuild b1
    have hall : b0 = p := (BitVec.and_allOnes (x := b0)).symm.trans hb0
    exact ⟨hmn, hwf, by rw [henc, hall]; rfl⟩

/-- R87: a decoded instruction is one of the row the matcher found, and the bytes are its encoding. -/
theorem decode_sound {bs rest : List Byte} {i : Instr} (h : decode bs = .ok i rest) :
    ∃ b0 b1 t e, bs = b0 :: b1 :: t ∧ findRow b0 b1 = some e ∧ i.mnemonic = e.mnemonic ∧ i.wellFormed = true ∧
      bs = encode i ++ rest := by
  obtain ⟨b0, b1, t, e, rfl, hrow, hparse⟩ := decode_ok h
  obtain ⟨hmem, hp, hs⟩ := findRow_some hrow
  obtain ⟨hmn, hwf, hbytes⟩ := parse_sound (table_describes e hmem) hp hs hparse
  exact ⟨b0, b1, t, e, rfl, hrow, hmn, hwf, hbytes⟩

/-- Settles O3: the row that matched describes the instruction. -/
theorem decodedBytesAreTheEncoding : Obligations.DecodedBytesAreTheEncoding := by
  intro bs rest i h
  obtain ⟨_, _, _, _, -, -, -, hwf, hbytes⟩ := decode_sound h
  exact ⟨hwf, hbytes⟩

/-- Settles O9: the row the matcher finds is the one whose routine built the instruction. -/
theorem decodedMnemonicIsTheRowsMnemonic : Obligations.DecodedMnemonicIsTheRowsMnemonic := by
  intro b0 b1 t rest i h
  obtain ⟨_, _, _, e, hbs, hrow, hmn, -⟩ := decode_sound h
  cases hbs
  exact ⟨e, hrow, hmn.symm⟩

/-! ## From an instruction to bytes and back -/

/-- R87: when a row of the table matches, the decoder gives what the row's routine gives. -/
theorem decode_of_row {e : Encoding} {b0 : Byte} {bs rest : List Byte} {i : Instr} (he : e ∈ table)
    (hp : e.primary.holds b0 = true) (hs : ∀ b1, bs.head? = some b1 → e.secondary.holds b1 = true)
    (h : e.layout.parse b0 bs = some (i, rest)) : decode (b0 :: bs) = .ok i rest := by
  obtain ⟨b1, t, rfl⟩ := parse_suffix h
  rw [List.cons_append] at h ⊢
  rw [decode_of_findRow (findRow_eq he hp (hs b1 rfl)), h]

section
variable {m : Mnemonic} {c : MatchCondition} {w : Width} {rm : RmField} {imm : ImmField}

/-- R69: the encodings of the shape `RM_REG` decode. -/
theorem decode_encode_rmReg {build : Bool → Width → BitVec 3 → RmField → Instr}
    (he : ⟨m, c, .always, .rmReg build⟩ ∈ table) (hrm : rm.wellFormed = true) (d : Bool) (reg : BitVec 3)
    (rest : List Byte) : decode (encode (build d w reg rm) ++ rest) = .ok (build d w reg rm) rest := by
  obtain ⟨hp, hmask, -, hbuild⟩ := table_describes _ he
  obtain ⟨mask, p⟩ := c
  cases (hmask : mask = _)
  obtain ⟨hpat, hd, hw⟩ := fields_of_flag_width p hp d w
  obtain ⟨-, -, henc⟩ := hbuild d w reg rm
  rw [henc]
  refine decode_of_row he (by simp [MatchCondition.holds, hpat]) (by simp) ?_
  simp [Layout.parse, takeModRm_encode hrm, hd, hw]

/-- R70: the encodings of the shape `IMM_RM` as `mov` uses it decode. -/
theorem decode_encode_immRmMov {build : Width → BitVec 3 → RmField → ImmField → Instr}
    (he : ⟨m, c, .always, .immRmMov build⟩ ∈ table) (hrm : rm.wellFormed = true) (himm : imm.fitsWidth w = true)
    (ign : BitVec 3) (rest : List Byte) :
    decode (encode (build w ign rm imm) ++ rest) = .ok (build w ign rm imm) rest := by
  obtain ⟨hp, hmask, -, hbuild⟩ := table_describes _ he
  obtain ⟨mask, p⟩ := c
  cases (hmask : mask = _)
  obtain ⟨hpat, hw⟩ := fields_of_width p hp w
  obtain ⟨-, -, henc⟩ := hbuild w ign rm imm
  rw [henc, List.append_assoc]
  refine decode_of_row he (by simp [MatchCondition.holds, hpat]) (by simp) ?_
  simp [Layout.parse, takeModRm_encode hrm, takeImm_encode (isTwoBytes_of_fitsWidth_mov himm), hw]

/-- R70, R72: the encodings of the shape `IMM_RM` of `add`, `sub` and `cmp` decode. -/
theorem decode_encode_immRm {d : MatchCondition} {build : Bool → Width → RmField → ImmField → Instr} {s : Bool}
    (he : ⟨m, c, d, .immRm build⟩ ∈ table) (hrm : rm.wellFormed = true) (himm : imm.fitsSignExtend s w = true)
    (rest : List Byte) : decode (encode (build s w rm imm) ++ rest) = .ok (build s w rm imm) rest := by
  obtain ⟨-, hc, op, hd, hbuild⟩ := table_describes _ he
  cases (hc : c = _)
  cases (hd : d = _)
  obtain ⟨hpat, hs, hw⟩ := fields_of_flag_width 0x80#8 rfl s w
  obtain ⟨-, -, henc⟩ := hbuild s w rm imm
  rw [henc, encodeImmRm, List.append_assoc]
  refine decode_of_row he (by simp [MatchCondition.holds, hpat]) ?_ ?_
  · rintro _ ⟨⟩
    exact (middle_holds_iff op _).mpr (reg_modRegRm _ _ _)
  · simp [Layout.parse, takeModRm_encode hrm, takeImm_encode (isTwoBytes_of_fitsSignExtend himm), fieldS_eq_fieldD, hs,
      hw]

/-- R73: the encodings of the shape `IMM_ACC` decode. -/
theorem decode_encode_immAcc {build : Width → ImmField → Instr} (he : ⟨m, c, .always, .immAcc build⟩ ∈ table)
    (himm : imm.fitsWidth w = true) (rest : List Byte) :
    decode (encode (build w imm) ++ rest) = .ok (build w imm) rest := by
  obtain ⟨hp, hmask, -, hbuild⟩ := table_describes _ he
  obtain ⟨mask, p⟩ := c
  cases (hmask : mask = _)
  obtain ⟨hpat, hw⟩ := fields_of_width p hp w
  obtain ⟨-, -, henc⟩ := hbuild w imm
  rw [henc]
  refine decode_of_row he (by simp [MatchCondition.holds, hpat]) (by simp) ?_
  simp [Layout.parse, takeImm_encode (isTwoBytes_of_fitsWidth himm), hw]

/-- R74: the encodings of the shape `IMM_REG` decode. -/
theorem decode_encode_immReg {build : Width → BitVec 3 → ImmField → Instr}
    (he : ⟨m, c, .always, .immReg build⟩ ∈ table) (himm : imm.fitsWidth w = true) (reg : BitVec 3)
    (rest : List Byte) : decode (encode (build w reg imm) ++ rest) = .ok (build w reg imm) rest := by
  obtain ⟨hp, hmask, -, hbuild⟩ := table_describes _ he
  obtain ⟨mask, p⟩ := c
  cases (hmask : mask = _)
  obtain ⟨hpat, hw, hreg⟩ := fields_of_short reg p hp w
  obtain ⟨-, -, henc⟩ := hbuild w reg imm
  rw [henc]
  refine decode_of_row he (by simp [MatchCondition.holds, hpat]) (by simp) ?_
  simp [Layout.parse, takeImm_encode (isTwoBytes_of_fitsWidth himm), hw, hreg]

/-- R75: the encodings of the shape `BRANCH` decode. -/
theorem decode_encode_branch {build : Byte → Instr} (he : ⟨m, c, .always, .branch build⟩ ∈ table) (d : Byte)
    (rest : List Byte) : decode (encode (build d) ++ rest) = .ok (build d) rest := by
  obtain ⟨hp, -, -, hbuild⟩ := table_describes _ he
  obtain ⟨-, -, henc⟩ := hbuild d
  rw [henc]
  exact decode_of_row he (by simpa [MatchCondition.holds] using hp) (by simp) rfl

end

/-- R64: the row at a place of the table is a row of the table. -/
theorem row_mem {e : Encoding} (n : Nat) (h : table[n]? = some e) : e ∈ table := List.mem_of_getElem? h

/-- Settles O2, constructor by constructor: each is built by one row of the table. -/
theorem encodedInstructionDecodesToItself : Obligations.EncodedInstructionDecodesToItself := by
  intro i rest h
  cases i with
  | movRmReg d w reg rm => exact decode_encode_rmReg (row_mem 0 rfl) h d reg rest
  | movImmRm w ign rm imm =>
    obtain ⟨hrm, himm⟩ := Bool.and_eq_true_iff.mp h
    exact decode_encode_immRmMov (row_mem 1 rfl) hrm himm ign rest
  | movImmReg w reg imm => exact decode_encode_immReg (row_mem 2 rfl) h reg rest
  | addRmReg d w reg rm => exact decode_encode_rmReg (row_mem 3 rfl) h d reg rest
  | subRmReg d w reg rm => exact decode_encode_rmReg (row_mem 4 rfl) h d reg rest
  | cmpRmReg d w reg rm => exact decode_encode_rmReg (row_mem 5 rfl) h d reg rest
  | addImmRm s w rm imm =>
    obtain ⟨hrm, himm⟩ := Bool.and_eq_true_iff.mp h
    exact decode_encode_immRm (row_mem 6 rfl) hrm himm rest
  | subImmRm s w rm imm =>
    obtain ⟨hrm, himm⟩ := Bool.and_eq_true_iff.mp h
    exact decode_encode_immRm (row_mem 7 rfl) hrm himm rest
  | cmpImmRm s w rm imm =>
    obtain ⟨hrm, himm⟩ := Bool.and_eq_true_iff.mp h
    exact decode_encode_immRm (row_mem 8 rfl) hrm himm rest
  | addImmAcc w imm => exact decode_encode_immAcc (row_mem 9 rfl) h rest
  | subImmAcc w imm => exact decode_encode_immAcc (row_mem 10 rfl) h rest
  | cmpImmAcc w imm => exact decode_encode_immAcc (row_mem 11 rfl) h rest
  | jo d => exact decode_encode_branch (row_mem 12 rfl) d rest
  | jno d => exact decode_encode_branch (row_mem 13 rfl) d rest
  | jb d => exact decode_encode_branch (row_mem 14 rfl) d rest
  | jnb d => exact decode_encode_branch (row_mem 15 rfl) d rest
  | je d => exact decode_encode_branch (row_mem 16 rfl) d rest
  | jne d => exact decode_encode_branch (row_mem 17 rfl) d rest
  | jbe d => exact decode_encode_branch (row_mem 18 rfl) d rest
  | jnbe d => exact decode_encode_branch (row_mem 19 rfl) d rest
  | js d => exact decode_encode_branch (row_mem 20 rfl) d rest
  | jns d => exact decode_encode_branch (row_mem 21 rfl) d rest
  | jp d => exact decode_encode_branch (row_mem 22 rfl) d rest
  | jnp d => exact decode_encode_branch (row_mem 23 rfl) d rest
  | jl d => exact decode_encode_branch (row_mem 24 rfl) d rest
  | jnl d => exact decode_encode_branch (row_mem 25 rfl) d rest
  | jle d => exact decode_encode_branch (row_mem 26 rfl) d rest
  | jnle d => exact decode_encode_branch (row_mem 27 rfl) d rest
  | loopnz d => exact decode_encode_branch (row_mem 28 rfl) d rest
  | loopz d => exact decode_encode_branch (row_mem 29 rfl) d rest
  | loop d => exact decode_encode_branch (row_mem 30 rfl) d rest
  | jcxz d => exact decode_encode_branch (row_mem 31 rfl) d rest

end Sys2Proof
end

section
/-! SUPPORT. The bytes of an encoding (30_encoding.md sections 1, 6 and 7): as numbers, their length, the bytes the
decoder does not recognise, and encodings cut short; the statements O1, O4, O6, O7 and O8. -/

namespace Sys2Proof

open Machine

/-! ## The bytes as numbers -/

/-- R67: `D` or `S` adds 2 to the opcode and `W` adds 1. -/
theorem firstByte_eq_ofNat (p : Byte) (hp : p &&& 0xFC#8 = p) (d : Bool) (w : Width) :
    p ||| bit1 d ||| w.bit = BitVec.ofNat 8 (p.toNat + 2 * d.toNat + widthBit w) := by
  cases d <;> cases w <;> (revert p; exact forall_byte (by decide))

/-- R67: `W` adds 1 to the opcode of the shapes without `D` and `S`. -/
theorem firstByte_width_eq_ofNat (p : Byte) (hp : p &&& 0xFE#8 = p) (w : Width) :
    p ||| w.bit = BitVec.ofNat 8 (p.toNat + widthBit w) := by
  cases w <;> (revert p; exact forall_byte (by decide))

/-- R67: the first byte of the short `mov`. -/
theorem firstByte_short_eq_ofNat (w : Width) (reg : BitVec 3) :
    0xB0#8 ||| w.bit3 ||| reg.setWidth 8 = BitVec.ofNat 8 (0xB0 + 8 * widthBit w + reg.toNat) := by
  cases w <;> (revert reg; decide)

theorem encodeRmReg_eq (p : Byte) (hp : p &&& 0xFC#8 = p) (d : Bool) (w : Width) (reg : BitVec 3) (rm : RmField) :
    encodeRmReg p d w reg rm = BitVec.ofNat 8 (p.toNat + 2 * d.toNat + widthBit w) :: modRmBytes reg rm := by
  rw [encodeRmReg, firstByte_eq_ofNat p hp, rmField_encode_eq]

theorem encodeImmRm_eq (op : BitVec 3) (s : Bool) (w : Width) (rm : RmField) (imm : ImmField) :
    encodeImmRm op s w rm imm =
      BitVec.ofNat 8 (0x80 + 2 * s.toNat + widthBit w) :: modRmBytes op rm ++ immediateBytes imm := by
  rw [encodeImmRm, firstByte_eq_ofNat 0x80#8 rfl, rmField_encode_eq, immField_encode_eq]
  rfl

theorem encodeImmAcc_eq (p : Byte) (hp : p &&& 0xFE#8 = p) (w : Width) (imm : ImmField) :
    encodeImmAcc p w imm = BitVec.ofNat 8 (p.toNat + widthBit w) :: immediateBytes imm := by
  rw [encodeImmAcc, firstByte_width_eq_ofNat p hp, immField_encode_eq]

/-- Settles O4: shape by shape; the encoding of a branch is its two bytes by definition. -/
theorem encodingsAreTheSpecsBitPatterns : Obligations.EncodingsAreTheSpecsBitPatterns := by
  intro d s w reg ign rm imm x
  refine ⟨encodeRmReg_eq 0x88#8 rfl d w reg rm, encodeRmReg_eq 0x00#8 rfl d w reg rm,
    encodeRmReg_eq 0x28#8 rfl d w reg rm, encodeRmReg_eq 0x38#8 rfl d w reg rm, ?movImmRm,
    encodeImmRm_eq 0#3 s w rm imm, encodeImmRm_eq 5#3 s w rm imm, encodeImmRm_eq 7#3 s w rm imm, ?movImmReg,
    encodeImmAcc_eq 0x04#8 rfl w imm, encodeImmAcc_eq 0x2C#8 rfl w imm, encodeImmAcc_eq 0x3C#8 rfl w imm, ?branches⟩
  case movImmRm =>
    rw [encode, firstByte_width_eq_ofNat 0xC6#8 rfl, rmField_encode_eq, immField_encode_eq]
    rfl
  case movImmReg => rw [encode, firstByte_short_eq_ofNat, immField_encode_eq]
  case branches => exact ⟨rfl, rfl, rfl, rfl, rfl, rfl, rfl, rfl, rfl, rfl, rfl, rfl, rfl, rfl, rfl, rfl, rfl, rfl,
    rfl, rfl⟩

/-- Settles O1: each byte string is an encoding of its instruction, and encodings decode to themselves. -/
theorem specBytesDecodeAsTheSpecWritesThem : Obligations.SpecBytesDecodeAsTheSpecWritesThem := by
  have back (i : Instr) (h : i.wellFormed = true) : decode (encode i ++ []) = .ok i [] :=
    encodedInstructionDecodesToItself i [] h
  exact ⟨back (.movRmReg false .word 3#3 (.register 0#3)) rfl,
    back (.movRmReg true .word 3#3 (.disp8 3#3 0x0A#8)) rfl,
    back (.movRmReg false .word 2#3 (.direct 0x03E8#16)) rfl,
    back (.movRmReg true .byte 0#3 (.disp8 0#3 0xFF#8)) rfl,
    back (.movImmRm .word 0#3 (.direct 0x03E8#16) (.imm16 0x1234#16)) rfl,
    back (.movImmRm .word 1#3 (.register 3#3) (.imm16 0x1234#16)) rfl,
    back (.movImmReg .byte 1#3 (.imm8 0x0C#8)) rfl,
    back (.addRmReg false .word 1#3 (.register 0#3)) rfl,
    back (.subImmRm true .word (.register 1#3) (.imm8 0x01#8)) rfl,
    back (.addImmAcc .word (.imm16 0x0002#16)) rfl,
    back (.jne 0xFE#8) rfl,
    back (.loop 0xF0#8) rfl⟩

/-! ## Lengths -/

/-- R60, R82: the length of every instruction's encoding. -/
theorem encode_length (i : Instr) : Laws.EncodedLength.Statement i := by
  cases i with
  | movRmReg d w reg rm => exact Laws.EncodedLength.movRmReg d w reg rm
  | movImmRm w ign rm imm => exact Laws.EncodedLength.movImmRm w ign rm imm
  | movImmReg w reg imm => exact Laws.EncodedLength.movImmReg w reg imm
  | addRmReg d w reg rm => exact Laws.EncodedLength.addRmReg d w reg rm
  | subRmReg d w reg rm => exact Laws.EncodedLength.subRmReg d w reg rm
  | cmpRmReg d w reg rm => exact Laws.EncodedLength.cmpRmReg d w reg rm
  | addImmRm s w rm imm => exact Laws.EncodedLength.addImmRm s w rm imm
  | subImmRm s w rm imm => exact Laws.EncodedLength.subImmRm s w rm imm
  | cmpImmRm s w rm imm => exact Laws.EncodedLength.cmpImmRm s w rm imm
  | addImmAcc w imm => exact Laws.EncodedLength.addImmAcc w imm
  | subImmAcc w imm => exact Laws.EncodedLength.subImmAcc w imm
  | cmpImmAcc w imm => exact Laws.EncodedLength.cmpImmAcc w imm
  | jo d => exact Laws.EncodedLength.jo d
  | jno d => exact Laws.EncodedLength.jno d
  | jb d => exact Laws.EncodedLength.jb d
  | jnb d => exact Laws.EncodedLength.jnb d
  | je d => exact Laws.EncodedLength.je d
  | jne d => exact Laws.EncodedLength.jne d
  | jbe d => exact Laws.EncodedLength.jbe d
  | jnbe d => exact Laws.EncodedLength.jnbe d
  | js d => exact Laws.EncodedLength.js d
  | jns d => exact Laws.EncodedLength.jns d
  | jp d => exact Laws.EncodedLength.jp d
  | jnp d => exact Laws.EncodedLength.jnp d
  | jl d => exact Laws.EncodedLength.jl d
  | jnl d => exact Laws.EncodedLength.jnl d
  | jle d => exact Laws.EncodedLength.jle d
  | jnle d => exact Laws.EncodedLength.jnle d
  | loopnz d => exact Laws.EncodedLength.loopnz d
  | loopz d => exact Laws.EncodedLength.loopz d
  | loop d => exact Laws.EncodedLength.loop d
  | jcxz d => exact Laws.EncodedLength.jcxz d

/-- Settles O8: the consumed bytes are the encoding, which has the tabled length. -/
theorem decodedLengthIsTheTabledLength : Obligations.DecodedLengthIsTheTabledLength := by
  intro bs rest i h
  obtain ⟨hwf, hbytes⟩ := decodedBytesAreTheEncoding bs rest i h
  obtain ⟨hlen, hge, hle⟩ := encode_length i hwf
  exact ⟨by rw [hbytes, List.length_append, hlen], hge, hle⟩

/-! ## Bytes that are not recognised -/

/-- R83: the listed first bytes are the ones that match the first condition of a row. -/
theorem any_primary_eq_recognised (b : Byte) :
    (table.any fun e => e.primary.holds b) = recognisedFirstByte b := by
  revert b; exact forall_byte (by decide)

/-- R72: the middle fields that select an operation of `80` to `83`. -/
def operationCodes : List (BitVec 3) := [0#3, 5#3, 7#3]

/-- R64, R72: a row tests the second byte only where its first condition is that of `80` to `83`. -/
theorem secondary_cases : ∀ e ∈ table, e.secondary = .always ∨ e.primary = ⟨0xFC#8, 0x80#8⟩ := by decide

/-- R64, R72: each operation of `80` to `83` has a row. -/
theorem row_of_operationCode : ∀ op ∈ operationCodes, ∃ e ∈ table,
    e.primary = ⟨0xFC#8, 0x80#8⟩ ∧ e.secondary = ⟨0x38#8, modRegRm 0#2 op 0#3⟩ := by decide

/-- R64, R72: the rows that match `80` to `83` are those of the three operations. -/
theorem operationCode_of_row : ∀ e ∈ table, e.primary.conflicts ⟨0xFC#8, 0x80#8⟩ = true ∨
    ∃ op ∈ operationCodes, e.secondary = ⟨0x38#8, modRegRm 0#2 op 0#3⟩ := by decide

theorem group_holds_iff (b : Byte) :
    MatchCondition.holds ⟨0xFC#8, 0x80#8⟩ b = true ↔ 0x80 ≤ b.toNat ∧ b.toNat ≤ 0x83 := by
  revert b; exact forall_byte (by decide)

/-- R68: the middle field as a number. -/
theorem fieldReg_toNat (b : Byte) : (fieldReg.code b).toNat = b.toNat / 8 % 8 := by
  revert b; exact forall_byte (by decide)

/-- R72: an illegal sub-operation in terms of the table's conditions. -/
theorem illegalSubOperation_iff (b0 b1 : Byte) : illegalSubOperation b0 b1 = true ↔
    MatchCondition.holds ⟨0xFC#8, 0x80#8⟩ b0 = true ∧ fieldReg.code b1 ∉ operationCodes := by
  simp only [illegalSubOperation, Bool.and_eq_true, decide_eq_true_eq, group_holds_iff, ← fieldReg_toNat,
    operationCodes, List.mem_cons, List.not_mem_nil, or_false, not_or, ← BitVec.toNat_inj]
  rfl

/-- R65, R72: the matcher finds no row for a recognised first byte exactly when the second selects no operation. -/
theorem findRow_eq_none_iff {b0 : Byte} (h : recognisedFirstByte b0 = true) (b1 : Byte) :
    findRow b0 b1 = none ↔ illegalSubOperation b0 b1 = true := by
  rw [illegalSubOperation_iff]
  constructor
  · intro hnone
    have hgroup : MatchCondition.holds ⟨0xFC#8, 0x80#8⟩ b0 = true := by
      obtain ⟨e, he, hp⟩ := List.any_eq_true.mp ((any_primary_eq_recognised b0).trans h)
      rcases secondary_cases e he with hs | hs
      · cases hnone.symm.trans (findRow_eq (b1 := b1) he hp (by rw [hs, always_holds]))
      · exact hs ▸ hp
    refine ⟨hgroup, fun hop => ?_⟩
    obtain ⟨e, he, hp, hs⟩ := row_of_operationCode _ hop
    cases hnone.symm.trans (findRow_eq he (hp ▸ hgroup) (by rw [hs]; exact (middle_holds_iff _ b1).mpr rfl))
  · rintro ⟨hgroup, hop⟩
    rw [Option.eq_none_iff_forall_ne_some]
    intro e hrow
    obtain ⟨he, hp, hs⟩ := findRow_some hrow
    rcases operationCode_of_row e he with hc | ⟨op, hmem, hsec⟩
    · exact absurd (MatchCondition.patterns_agree hp hgroup) (by simpa [MatchCondition.conflicts] using hc)
    · rw [hsec, middle_holds_iff] at hs
      exact hop (hs ▸ hmem)

/-- R83, R87: a first byte outside the list is Unrecognized, whatever follows. -/
theorem decode_of_not_recognised {b0 : Byte} (h : recognisedFirstByte b0 = false) (t : List Byte) :
    decode (b0 :: t) = .unrecognized := by
  simp [decode, any_primary_eq_recognised, h]

/-- R84, R87: a recognised first byte alone is Truncated. -/
theorem decode_singleton {b0 : Byte} (h : recognisedFirstByte b0 = true) : decode [b0] = .truncated := by
  simp [decode, any_primary_eq_recognised, h]

/-- R72, R87: an illegal sub-operation is Unrecognized, whatever follows. -/
theorem decode_of_illegal {b0 b1 : Byte} (h : illegalSubOperation b0 b1 = true) (t : List Byte) :
    decode (b0 :: b1 :: t) = .unrecognized := by
  cases hr : recognisedFirstByte b0 with
  | false => exact decode_of_not_recognised hr _
  | true => simp [decode, any_primary_eq_recognised, hr, (findRow_eq_none_iff hr b1).mpr h]

/-- R87: a recognised first byte and a legal second one are not Unrecognized. -/
theorem decode_ne_unrecognized {b0 b1 : Byte} (hr : recognisedFirstByte b0 = true)
    (hl : illegalSubOperation b0 b1 = false) (t : List Byte) : decode (b0 :: b1 :: t) ≠ .unrecognized := by
  cases hrow : findRow b0 b1 with
  | none => simp [(findRow_eq_none_iff hr b1).mp hrow] at hl
  | some e => rw [decode_of_findRow hrow]; split <;> simp

/-- Settles O6, along the first two bytes. -/
theorem unrecognizedExactlyOutsideTheListedBytes : Obligations.UnrecognizedExactlyOutsideTheListedBytes := by
  intro bs
  constructor
  · intro h
    match bs, h with
    | b0 :: t, h =>
      refine ⟨b0, t, rfl, ?_⟩
      cases hr : recognisedFirstByte b0 with
      | false => exact .inl rfl
      | true =>
        match t, h with
        | [], h => cases h.symm.trans (decode_singleton hr)
        | b1 :: u, h =>
          exact .inr ⟨b1, u, rfl, by_contra fun hl => decode_ne_unrecognized hr (Bool.eq_false_iff.mpr hl) u h⟩
  · rintro ⟨b0, t, rfl, hr | ⟨b1, u, rfl, hill⟩⟩
    · exact decode_of_not_recognised hr t
    · exact decode_of_illegal hill u

/-! ## Encodings cut short -/

/-- R87: what is Unrecognized stays so when bytes are added. -/
theorem decode_unrecognized_append {bs : List Byte} (h : decode bs = .unrecognized) (more : List Byte) :
    decode (bs ++ more) = .unrecognized := by
  obtain ⟨b0, t, rfl, hb⟩ := (unrecognizedExactlyOutsideTheListedBytes bs).mp h
  refine (unrecognizedExactlyOutsideTheListedBytes _).mpr ⟨b0, t ++ more, rfl, hb.imp_right ?_⟩
  rintro ⟨b1, u, rfl, hill⟩
  exact ⟨b1, u ++ more, rfl, hill⟩

/-- R87: bytes added after a decoded instruction are left over. -/
theorem decode_ok_append {bs rest : List Byte} {i : Instr} (h : decode bs = .ok i rest) (more : List Byte) :
    decode (bs ++ more) = .ok i (rest ++ more) := by
  obtain ⟨hwf, rfl⟩ := decodedBytesAreTheEncoding bs rest i h
  rw [List.append_assoc]
  exact encodedInstructionDecodesToItself i _ hwf

/-- Settles O7: with the missing bytes added the cut encoding decodes to the instruction and leaves nothing, so without
them it is neither Unrecognized nor an instruction. -/
theorem cutEncodingIsTruncated : Obligations.CutEncodingIsTruncated := by
  intro i n hwf hn
  have hwhole : decode ((encode i).take n ++ (encode i).drop n) = .ok i [] := by
    simpa using encodedInstructionDecodesToItself i [] hwf
  cases hcut : decode ((encode i).take n) with
  | truncated => rfl
  | unrecognized => cases hwhole.symm.trans (decode_unrecognized_append hcut _)
  | ok j rest =>
    have hleft : [] = rest ++ (encode i).drop n := by
      injection hwhole.symm.trans (decode_ok_append hcut _)
    have hdrop : (encode i).drop n = [] := (List.append_eq_nil_iff.mp hleft.symm).2
    exact absurd (List.drop_eq_nil_iff.mp hdrop) (Nat.not_le_of_lt hn)

end Sys2Proof
end

section
/-! SUPPORT. The data instructions (41_mov.md, 42_arith.md): values at a width, the wrapped results of R130, what an
operand reads as after a store, the next state of `mov`, `add`, `sub`, `cmp` and the memory fault; the statements O21 to
O30, O32 and O49. -/

namespace Sys2Proof.Machine

/-! ## Values at a width -/

/-- R8: the mask of a width keeps the value modulo `2^bits`. -/
theorem and_mask_toNat (w : Width) (v : Word) : (v &&& mask w).toNat = v.toNat % 2 ^ bits w := by
  rw [BitVec.toNat_and]
  cases w with
  | byte => exact Nat.and_two_pow_sub_one_eq_mod v.toNat 8
  | word => exact Nat.and_two_pow_sub_one_eq_mod v.toNat 16

theorem zext16_lowByte (v : Word) : zext16 (lowByte v) = v &&& mask .byte := by
  apply BitVec.eq_of_toNat_eq
  rw [zext16_toNat, lowByte_toNat, and_mask_toNat]
  rfl

theorem and_mask_word (v : Word) : v &&& mask .word = v := BitVec.and_allOnes

/-! ## The wrapped results -/

/-- R130: the wrapped sum as an integer. -/
theorem wrapAdd_toNat (w : Width) (a b : Word) :
    ((wrapAdd w a b).toNat : Int) = ((a.toNat : Int) + b.toNat) % 2 ^ bits w := by
  cases w with
  | byte =>
    simp only [wrapAdd, zext16_toNat, BitVec.toNat_add, lowByte_toNat, bits]
    omega
  | word =>
    simp only [wrapAdd, BitVec.toNat_add, bits]
    omega

/-- R130: the wrapped difference as an integer. -/
theorem wrapSub_toNat (w : Width) (a b : Word) :
    ((wrapSub w a b).toNat : Int) = ((a.toNat : Int) - b.toNat) % 2 ^ bits w := by
  have ha := a.isLt
  have hb := b.isLt
  cases w with
  | byte =>
    simp only [wrapSub, zext16_toNat, BitVec.toNat_sub, lowByte_toNat, bits]
    omega
  | word =>
    simp only [wrapSub, BitVec.toNat_sub, bits]
    omega

/-- R130: the wrapped result of an operation. -/
def AluOp.wrap : AluOp → Width → Word → Word → Word
  | .add => wrapAdd
  | .sub => wrapSub
  | .cmp => wrapSub

theorem wrap_lt (op : AluOp) (w : Width) (a b : Word) : (op.wrap w a b).toNat < 2 ^ bits w := by
  have hpos : (0 : Int) < 2 ^ bits w := by positivity
  have hadd := wrapAdd_toNat w a b
  have hsub := wrapSub_toNat w a b
  zify
  cases op with
  | add => rw [AluOp.wrap, hadd]; exact Int.emod_lt_of_pos _ hpos
  | sub | cmp => rw [AluOp.wrap, hsub]; exact Int.emod_lt_of_pos _ hpos

/-- A word built from a number reduced at a width is that number. -/
theorem ofInt_emod_toNat (w : Width) (x : Int) :
    ((BitVec.ofInt 16 (x % 2 ^ bits w)).toNat : Int) = x % 2 ^ bits w := by
  rw [BitVec.toNat_ofInt]
  cases w <;> (simp only [bits]; omega)

/-- R130: the integer formula of the result, on the operands cut to the width, is the wrapped one. -/
theorem aluResult_eq_wrap (op : AluOp) (w : Width) (a b : Word) :
    aluResult op w (a &&& mask w) (b &&& mask w) = op.wrap w a b := by
  apply BitVec.eq_of_toNat_eq
  zify
  cases op with
  | add =>
    rw [aluResult, AluOp.wrap, ofInt_emod_toNat, wrapAdd_toNat, and_mask_toNat, and_mask_toNat]
    push_cast
    exact (Int.add_emod ..).symm
  | sub | cmp =>
    rw [aluResult, AluOp.wrap, ofInt_emod_toNat, wrapSub_toNat, and_mask_toNat, and_mask_toNat]
    push_cast
    exact (Int.sub_emod ..).symm

theorem zeroOf_eq (res : Word) : zeroOf res = decide (res.toNat = 0) := by
  rw [zeroOf, beq_eq_decide, decide_eq_decide]
  exact BitVec.toNat_inj.symm

theorem topBitSet_eq (w : Width) (res : Word) : topBitSet w res = decide (2 ^ (bits w - 1) ≤ res.toNat) := by
  cases w <;> rfl

/-- R130: the top bit of a result that fits the width. -/
theorem signOf_eq {w : Width} {res : Word} (h : res.toNat < 2 ^ bits w) : signOf w res = topBitSet w res := by
  rw [topBitSet_eq, signOf, BitVec.getLsbD, Nat.testBit_eq_decide_div_mod_eq, decide_eq_decide]
  cases w <;> (simp only [bits] at h ⊢; omega)

/-! ## An operand read after a store -/

/-- R106, R107: an operand reads as the value stored into it, cut to its width. -/
theorem operandValue_storeOperand {o : Operand} {w : Width} (hw : operandWidth o = some w) (v : Word) (s : State) :
    operandValue o (storeOperand o v s) = v &&& mask w := by
  cases o with
  | register a =>
    obtain ⟨i, x⟩ := a
    cases hw
    cases x with
    | byte => exact (regRead_regWrite_byte i v s.regs).trans (zext16_lowByte v)
    | word => exact (regRead_regWrite_word i v s.regs).trans (and_mask_word v).symm
  | memory m =>
    obtain ⟨b1, b2, d, x⟩ := m
    cases hw
    cases x with
    | byte => simp only [operandValue, storeOperand, Memory.read_write_same, zext16_lowByte]
    | word =>
      simp only [operandValue, storeOperand, Memory.read_write_same, and_mask_word,
        Memory.read_write_other _ _ (Nat.ne_of_lt (Nat.lt_succ_self _)), pair_high_low]
  | immediate x => cases hw
  | none => cases hw

/-! ## What an instruction does -/

/-- R109: an instruction without data operands raises no memory fault. -/
theorem raisesMemFault_of_no_data {i : Instr} (h : i.dataOperands = none) (s : State) : raisesMemFault i s = false := by
  simp only [raisesMemFault, Instr.dst, Instr.src, h]
  cases i.branchDisp <;> rfl

theorem isData_of_isAlu {m : Mnemonic} (h : m.isAlu = true) : m.isData = true := by simp [Mnemonic.isData, h]

/-- R105: every instruction answers a next state. -/
theorem exec_next (i : Instr) (s : State) : ∃ t, exec i s = .next t := by
  rcases exec_cases i s with ⟨dst, src, -, -, he⟩ | ⟨dst, src, -, -, he⟩ | ⟨d, -, he⟩ | ⟨-, -, -, he⟩
  · exact he ▸ finish_next s _
  · exact he ▸ finish_next s _
  · rw [he]
    cases hz : s.zf with
    | true => exact ⟨_, execJne_of_set d hz⟩
    | false => exact ⟨_, execJne_of_clear d hz⟩
  · exact ⟨s, he⟩

/-- Settles O49: each kind of instruction ends in a state. -/
theorem everyInstructionAnswersANextState : Obligations.EveryInstructionAnswersANextState := exec_next

/-- Settles O32: a data instruction checks both operands before any effect; a branch has none to check. -/
theorem memoryFaultHasNoOtherEffect : Obligations.MemoryFaultHasNoOtherEffect := by
  intro i s hf
  rcases exec_cases i s with ⟨dst, src, hd, hm, he⟩ | ⟨dst, src, hd, ha, he⟩ | ⟨d, rfl, -⟩ | ⟨-, -, hn, -⟩
  · rw [raisesMemFault_of_data hd] at hf
    exact ⟨by rw [hm]; rfl, by rw [he, mov_eq, if_pos hf]; rfl⟩
  · rw [raisesMemFault_of_data hd] at hf
    exact ⟨isData_of_isAlu ha, by rw [he, alu_eq, if_pos hf]; rfl⟩
  · cases hf
  · cases (raisesMemFault_of_no_data hn s).symm.trans hf

/-- R109: an instruction that raises the memory fault takes it and does nothing else. -/
theorem exec_of_fault {i : Instr} {s : State} (h : raisesMemFault i s = true) :
    exec i s = .next (s.raiseFault .memOutOfRange) := (memoryFaultHasNoOtherEffect i s h).2

/-- R80: the instructions that move or compute data have two operands. -/
theorem data_of_isData {i : Instr} (h : i.mnemonic.isData = true) :
    ∃ dst src, i.dataOperands = some (dst, src) := by
  cases i with
  | movRmReg | movImmRm | movImmReg => exact ⟨_, _, rfl⟩
  | addRmReg | addImmRm | addImmAcc => exact ⟨_, _, rfl⟩
  | subRmReg | subImmRm | subImmAcc => exact ⟨_, _, rfl⟩
  | cmpRmReg | cmpImmRm | cmpImmAcc => exact ⟨_, _, rfl⟩
  | _ => cases h

/-- R108: the destination of a data instruction has a width. -/
theorem width_of_isData {i : Instr} (h : i.mnemonic.isData = true) : ∃ w, operandWidth i.dst = some w := by
  obtain ⟨dst, src, hd⟩ := data_of_isData h
  exact ⟨opWidth dst, by rw [(operands_of_data hd).1, opWidth_eq]⟩

/-- R120: a `mov` that raises no fault. -/
theorem exec_mov_inRange {i : Instr} {s : State} (hm : i.mnemonic = .mov) (hf : raisesMemFault i s = false) :
    exec i s = .next (storeOperand i.dst (operandValue i.src s) s) := by
  obtain ⟨dst, src, hd⟩ := data_of_isData (i := i) (by rw [hm]; rfl)
  rw [raisesMemFault_of_data hd] at hf
  rw [exec_of_mov hd hm, mov_eq, hf, (operands_of_data hd).1, (operands_of_data hd).2]
  rfl

/-- Settles O22: a store leaves the flags. -/
theorem movStoresTheSourceValue : Obligations.MovStoresTheSourceValue :=
  fun _ s hm hf => ⟨exec_mov_inRange hm hf, storeOperand_zf _ _ s, storeOperand_sf _ _ s⟩

/-- Settles O23: the stored value is read back. -/
theorem movDestinationReadsAsTheSource : Obligations.MovDestinationReadsAsTheSource :=
  fun _ s _ hm hw hf => ⟨_, exec_mov_inRange hm hf, operandValue_storeOperand hw _ s⟩

/-- R130: the result of an ALU instruction in a state. -/
def aluRes (i : Instr) (w : Width) (s : State) : Word :=
  (aluOpOf i.mnemonic).wrap w (operandValue i.dst s) (operandValue i.src s)

/-- R130: an ALU instruction that raises no fault. -/
theorem exec_alu_inRange {i : Instr} {s : State} {w : Width} (ha : i.mnemonic.isAlu = true)
    (hw : operandWidth i.dst = some w) (hf : raisesMemFault i s = false) :
    exec i s = .next ((if (aluOpOf i.mnemonic).writesBack then storeOperand i.dst (aluRes i w s) s else s).withFlags
      (decide ((aluRes i w s).toNat = 0)) (topBitSet w (aluRes i w s))) := by
  obtain ⟨dst, src, hd⟩ := data_of_isData (isData_of_isAlu ha)
  obtain ⟨hdst, hsrc⟩ := operands_of_data hd
  rw [raisesMemFault_of_data hd] at hf
  rw [hdst, opWidth_eq] at hw
  cases hw
  have hlt : (aluRes i (opWidth dst) s).toNat < 2 ^ bits (opWidth dst) := wrap_lt ..
  have hres : aluResult (aluOpOf i.mnemonic) (opWidth dst) (operandValue dst.operand s &&& mask (opWidth dst))
      (operandValue src.operand s &&& mask (opWidth dst)) = aluRes i (opWidth dst) s := by
    rw [aluResult_eq_wrap, aluRes, hdst, hsrc]
  rw [exec_of_alu hd ha, alu_eq, hf, ← zeroOf_eq, ← signOf_eq hlt, hdst]
  simp only [aluState, hres]
  rfl

/-- Settles O24: `add` writes its wrapped result back. -/
theorem addStoresTheWrappedSum : Obligations.AddStoresTheWrappedSum := by
  intro i s w hm hw hf
  rw [exec_alu_inRange (by rw [hm]; rfl) hw hf, aluRes, hm]
  rfl

/-- Settles O25: `sub` writes its wrapped result back. -/
theorem subStoresTheWrappedDifference : Obligations.SubStoresTheWrappedDifference := by
  intro i s w hm hw hf
  rw [exec_alu_inRange (by rw [hm]; rfl) hw hf, aluRes, hm]
  rfl

/-- Settles O26: `cmp` writes nothing back. -/
theorem cmpSetsTheFlagsOfTheDifference : Obligations.CmpSetsTheFlagsOfTheDifference := by
  intro i s w hm hw hf
  rw [exec_alu_inRange (by rw [hm]; rfl) hw hf, aluRes, hm]
  rfl

end Sys2Proof.Machine
end

section
/-! SUPPORT. Consequences of the next states of `mov`, `add`, `sub`, `cmp` (20_memory.md section 6, 42_arith.md): the
statements O21, O27, O28, O29 and O30. -/

namespace Sys2Proof.Machine

/-- R130: the operations that write back leave their result in the destination. -/
theorem operandValue_aluRes {i : Instr} {w : Width} (hw : operandWidth i.dst = some w) (s : State) :
    (operandValue i.dst (storeOperand i.dst (aluRes i w s) s)).toNat = (aluRes i w s).toNat := by
  rw [operandValue_storeOperand hw, and_mask_toNat]
  exact Nat.mod_eq_of_lt (wrap_lt ..)

theorem writesBack_aluOpOf {m : Mnemonic} (ha : m.isAlu = true) (hc : m ≠ .cmp) : (aluOpOf m).writesBack = true := by
  cases m with
  | add | sub => rfl
  | cmp => exact absurd rfl hc
  | _ => cases ha

theorem aluRes_add {i : Instr} (h : i.mnemonic = .add) (w : Width) (s : State) :
    aluRes i w s = wrapAdd w (operandValue i.dst s) (operandValue i.src s) := by rw [aluRes, h]; rfl

/-- R130: `sub` and `cmp` take the difference. -/
theorem aluRes_not_add {i : Instr} (h : i.mnemonic ≠ .add) (w : Width) (s : State) :
    aluRes i w s = wrapSub w (operandValue i.dst s) (operandValue i.src s) := by
  rw [aluRes, aluOpOf, if_neg h]
  split <;> rfl

/-- Settles O27: the number is the wrapped result; a top bit set means it is not 0. -/
theorem aluResultAndFlagsAsIntegers : Obligations.AluResultAndFlagsAsIntegers := by
  intro i s w ha hw hf
  refine ⟨_, exec_alu_inRange ha hw hf, (aluRes i w s).toNat, wrap_lt .., fun hm => ?add, fun hm => ?difference, rfl,
    topBitSet_eq w _, ?exclusive, fun hc => ?destination⟩
  case add => rw [aluRes_add hm, wrapAdd_toNat]
  case difference => rw [aluRes_not_add hm, wrapSub_toNat]
  case exclusive =>
    rintro ⟨hz, hs⟩
    have hzero : (aluRes i w s).toNat = 0 := of_decide_eq_true hz
    have htop : 2 ^ (bits w - 1) ≤ (aluRes i w s).toNat := of_decide_eq_true ((topBitSet_eq w _).symm.trans hs)
    exact absurd (hzero ▸ htop) (Nat.not_le_of_lt (Nat.two_pow_pos _))
  case destination =>
    rw [writesBack_aluOpOf ha hc, if_pos rfl, operandValue_withFlags]
    exact operandValue_aluRes hw s

/-- R130: the wrapped difference is 0 exactly when the operands agree in the bits of the width. -/
theorem wrapSub_eq_zero_iff (w : Width) (a b : Word) : (wrapSub w a b).toNat = 0 ↔ a &&& mask w = b &&& mask w := by
  have h := wrapSub_toNat w a b
  rw [← BitVec.toNat_inj, and_mask_toNat, and_mask_toNat]
  cases w <;> (simp only [bits] at h ⊢; omega)

/-- Settles O28: `ZF` says that the wrapped difference is 0. -/
theorem zeroFlagMeansEqualOperands : Obligations.ZeroFlagMeansEqualOperands := by
  intro i s w hm hw hf
  have ha : i.mnemonic.isAlu = true := by rcases hm with h | h <;> (rw [h]; rfl)
  have hadd : i.mnemonic ≠ .add := by rcases hm with h | h <;> simp [h]
  refine ⟨_, exec_alu_inRange ha hw hf, decide_eq_true_iff.trans ?_⟩
  rw [aluRes_not_add hadd, wrapSub_eq_zero_iff]

theorem wrapSub_self (w : Width) (a : Word) : wrapSub w a a = 0x0000#16 :=
  BitVec.eq_of_toNat_eq ((wrapSub_eq_zero_iff w a a).mpr rfl)

/-- Settles O29: in both directions both operands are the register. -/
theorem registerMinusItselfIsZero : Obligations.RegisterMinusItselfIsZero := by
  intro d w a s
  have hdst : (Instr.subRmReg d w a (.register a)).dst = .register ⟨a, w⟩ := by cases d <;> rfl
  have hsrc : (Instr.subRmReg d w a (.register a)).src = .register ⟨a, w⟩ := by cases d <;> rfl
  have hw : operandWidth (Instr.subRmReg d w a (.register a)).dst = some w := by rw [hdst]; rfl
  have hres := subStoresTheWrappedDifference _ s w rfl hw (by rw [raisesMemFault, hdst, hsrc]; rfl)
  rw [hdst, hsrc, wrapSub_self] at hres
  have hread := operandValue_storeOperand (o := .register ⟨a, w⟩) rfl 0x0000#16 s
  exact ⟨_, hres, hread.trans BitVec.zero_and, rfl, by cases w <;> rfl⟩

/-- R71, R106: a word register as the destination of the one-byte immediate form, after the instruction. -/
theorem regRead_of_storeWord (a : BitVec 3) (v : Word) (s : State) :
    regRead ⟨a, .word⟩ (storeOperand (.register ⟨a, .word⟩) v s).regs = v := regRead_regWrite_word a v s.regs

/-- Settles O30: the immediate is the sign-extended byte, which is its signed value modulo 65536. -/
theorem shortImmediateActsBySignedValue : Obligations.ShortImmediateActsBySignedValue := by
  intro a x s
  constructor
  · refine ⟨_, addStoresTheWrappedSum _ s .word rfl rfl rfl, ?_⟩
    show ((regRead ⟨a, .word⟩ (storeOperand (.register ⟨a, .word⟩)
      (wrapAdd .word (regRead ⟨a, .word⟩ s.regs) (sext16 x)) s).regs).toNat : Int) = _
    rw [regRead_of_storeWord, wrapAdd_toNat, sext16_toNat]
    exact Int.add_emod_emod ..
  · refine ⟨_, subStoresTheWrappedDifference _ s .word rfl rfl rfl, ?_⟩
    show ((regRead ⟨a, .word⟩ (storeOperand (.register ⟨a, .word⟩)
      (wrapSub .word (regRead ⟨a, .word⟩ s.regs) (sext16 x)) s).regs).toNat : Int) = _
    rw [regRead_of_storeWord, wrapSub_toNat, sext16_toNat]
    exact Int.sub_emod_emod ..

/-! ## A store and a load -/

theorem operandWidth_place (w : Width) (rm : RmField) : operandWidth (rm.place w).operand = some w := by
  cases rm <;> rfl

/-- R48, R107: a store does not move the operand it stores into. -/
theorem operandAtTop_storeOperand (o : Operand) (v : Word) (s : State) :
    operandAtTop o (storeOperand o v s).regs = operandAtTop o s.regs := by
  cases o with
  | memory m => obtain ⟨_, _, _, w⟩ := m; cases w <;> rfl
  | _ => rfl

/-- R12: a register read fits the width of the access. -/
theorem regRead_and_mask (a : RegAccess) (r : RegFile) : regRead a r &&& mask a.w = regRead a r := by
  obtain ⟨i, w⟩ := a
  cases w with
  | byte =>
    apply BitVec.eq_of_toNat_eq
    rw [and_mask_toNat]
    exact Nat.mod_eq_of_lt (regRead_byte_lt i r)
  | word => exact and_mask_word _

/-- Settles O21: the load reads the operand the store wrote, and the register fits the width. -/
theorem loadReturnsTheStoredRegister : Obligations.LoadReturnsTheStoredRegister := by
  intro w a b rm s hf
  have hw : operandWidth (rm.place w).operand = some w := operandWidth_place w rm
  have hstore := exec_mov_inRange (i := .movRmReg false w a rm) rfl hf
  have htop : operandAtTop (rm.place w).operand s.regs = false := (Bool.or_eq_false_iff.mp hf).1
  have hload := exec_mov_inRange (i := .movRmReg true w b rm)
    (s := storeOperand (rm.place w).operand (regRead ⟨a, w⟩ s.regs) s) rfl
    ((operandAtTop_storeOperand _ _ s).trans htop)
  refine ⟨_, _, hstore, hload, ?_⟩
  calc operandValue (.register ⟨b, w⟩) (storeOperand (.register ⟨b, w⟩) _ _)
      = _ &&& mask w := operandValue_storeOperand rfl _ _
    _ = (regRead ⟨a, w⟩ s.regs &&& mask w) &&& mask w := congrArg (· &&& mask w) (operandValue_storeOperand hw _ s)
    _ = regRead ⟨a, w⟩ s.regs := by rw [regRead_and_mask ⟨a, w⟩, regRead_and_mask ⟨a, w⟩]

end Sys2Proof.Machine
end

section
/-! SUPPORT. Registers and data memory (10_state.md section 2, 20_memory.md): reads after writes, the order of the bytes
of a word, and what a store leaves unchanged; the statements O15, O16, O17, O19 and O20. -/

namespace Sys2Proof.Machine

/-! ## Registers -/

/-- Settles O15: the slot of each index by definition. -/
theorem wordRegisterIndicesNameTheSlots : Obligations.WordRegisterIndicesNameTheSlots :=
  fun _ _ => ⟨⟨rfl, rfl, rfl⟩, ⟨rfl, rfl, rfl⟩, ⟨rfl, rfl, rfl⟩, ⟨rfl, rfl, rfl⟩, ⟨rfl, rfl, rfl⟩, ⟨rfl, rfl, rfl⟩,
    ⟨rfl, rfl, rfl⟩, ⟨rfl, rfl, rfl⟩⟩

/-- R12: bit 2 of a byte index. -/
theorem isHighHalf_eq (i : BitVec 3) : isHighHalf i = decide (4 ≤ i.toNat) := by
  revert i; decide

/-- R12: a byte read as a number. -/
theorem regRead_byte_toNat (i : BitVec 3) (r : RegFile) : (regRead ⟨i, .byte⟩ r).toNat =
    if 4 ≤ i.toNat then (r.get (byteSlot i)).toNat / 256 else (r.get (byteSlot i)).toNat % 256 := by
  simp only [regRead, isHighHalf_eq, decide_eq_true_eq]
  split
  · rw [zext16_toNat, highByte_toNat]
  · rw [zext16_toNat, lowByte_toNat]

/-- Settles O16, index by index. -/
theorem byteRegisterReadsOneHalf : Obligations.ByteRegisterReadsOneHalf :=
  fun r => ⟨regRead_byte_toNat 0#3 r, regRead_byte_toNat 1#3 r, regRead_byte_toNat 2#3 r, regRead_byte_toNat 3#3 r,
    regRead_byte_toNat 4#3 r, regRead_byte_toNat 5#3 r, regRead_byte_toNat 6#3 r, regRead_byte_toNat 7#3 r⟩

/-- R11, R12: a read depends on the slot of its access alone. -/
theorem regRead_congr {a : RegAccess} {r q : RegFile} (h : r.get (accessSlot a) = q.get (accessSlot a)) :
    regRead a r = regRead a q := by
  obtain ⟨i, w⟩ := a
  cases w with
  | word => exact h
  | byte => simp only [accessSlot] at h; simp only [regRead, h]

/-- R14: a byte write keeps what every other byte index reads. -/
theorem regRead_regWrite_other_byte {i j : BitVec 3} (h : i ≠ j) (v : Word) (r : RegFile) :
    regRead ⟨j, .byte⟩ (regWrite ⟨i, .byte⟩ v r) = regRead ⟨j, .byte⟩ r := by
  by_cases hs : byteSlot j = byteSlot i
  · have hh : isHighHalf i ≠ isHighHalf j := fun hh => h (byteIndex_ext hs.symm hh)
    simp only [regRead, hs, regWrite_byte_slot]
    cases hj : isHighHalf j with
    | true =>
      have hi : isHighHalf i = false := by simpa [hj] using hh
      simp [hi]
    | false =>
      have hi : isHighHalf i = true := by simpa [hj] using hh
      simp [hi]
  · exact regRead_congr (regWrite_get_other ⟨i, .byte⟩ v r hs)

/-- R13: a half of a word just written. -/
theorem regRead_byte_regWrite_word {i j : BitVec 3} (h : slotOf i = byteSlot j) (v : Word) (r : RegFile) :
    (regRead ⟨j, .byte⟩ (regWrite ⟨i, .word⟩ v r)).toNat = if 4 ≤ j.toNat then v.toNat / 256 else v.toNat % 256 := by
  rw [regRead_byte_toNat, ← h, regWrite_word_slot]

/-- R14: a word with a half just written. -/
theorem regRead_word_regWrite_byte {i j : BitVec 3} (h : byteSlot i = slotOf j) (v : Word) (r : RegFile) :
    (regRead ⟨j, .word⟩ (regWrite ⟨i, .byte⟩ v r)).toNat =
      if 4 ≤ i.toNat then v.toNat % 256 * 256 + (regRead ⟨j, .word⟩ r).toNat % 256
      else (regRead ⟨j, .word⟩ r).toNat / 256 * 256 + v.toNat % 256 := by
  simp only [regRead, ← h, regWrite_byte_slot, isHighHalf_eq, decide_eq_true_eq]
  split <;> simp only [pair_toNat, lowByte_toNat, highByte_toNat]

/-- Settles O17, by the widths of the two accesses. -/
theorem registerReadAfterWrite : Obligations.RegisterReadAfterWrite := by
  intro a b v r
  refine ⟨?same, fun h => regRead_congr (regWrite_get_other a v r (Ne.symm h)), ?bytes, ?wordByte, ?byteWord⟩
  case same =>
    rintro rfl
    obtain ⟨i, w⟩ := a
    cases w with
    | byte => exact (regRead_regWrite_byte i v r).trans (zext16_lowByte v)
    | word => exact (regRead_regWrite_word i v r).trans (and_mask_word v).symm
  all_goals obtain ⟨i, w⟩ := a; obtain ⟨j, x⟩ := b
  case bytes => rintro ⟨⟩ ⟨⟩ h; exact regRead_regWrite_other_byte h v r
  case wordByte => rintro ⟨⟩ ⟨⟩ h; exact regRead_byte_regWrite_word h v r
  case byteWord => rintro ⟨⟩ ⟨⟩ h; exact regRead_word_regWrite_byte h v r

/-! ## Data memory -/

theorem read_writeWord_low (m : Memory) (a : Nat) (lo hi : Byte) :
    Memory.read (Memory.write (Memory.write m a lo) (a + 1) hi) a = lo := by
  rw [Memory.read_write_other _ _ (Nat.ne_of_lt (Nat.lt_succ_self a)), Memory.read_write_same]

/-- An address that is not the top one has the next number as its next address. -/
theorem succ_toNat {addr : Word} (h : addr ≠ topAddress) : (addr + 1#16).toNat = addr.toNat + 1 := by
  have hlt := succ_lt_dmemSize h
  rw [BitVec.toNat_add]
  exact Nat.mod_eq_of_lt hlt

/-- Settles O19: the low byte stands at the lower address, in stores, loads and the fetch. -/
theorem wordsAreLittleEndian : Obligations.WordsAreLittleEndian := by
  refine ⟨fun m addr v h => ?store, fun m addr lo hi q q' h hq hq' => ?bytes,
    fun lo hi bs => ⟨_, rfl, pair_toNat hi lo⟩⟩
  case store =>
    refine ⟨_, memWrite_word m h v, ?_, ?_, ?_⟩
    · rw [read_writeWord_low, lowByte_toNat]
    · rw [Memory.read_write_same, highByte_toNat]
    · rw [memRead_word _ h, read_writeWord_low, Memory.read_write_same, pair_high_low]
  case bytes =>
    cases hq
    cases hq'
    refine ⟨_, memRead_word _ h, ?_⟩
    rw [succ_toNat h, read_writeWord_low, Memory.read_write_same, pair_toNat, lowByte_toNat, lowByte_toNat]

/-- R45: a store keeps every byte outside its own. -/
theorem memWrite_read_other {m q : Memory} {addr : Word} {w : Width} {v : Word} (h : memWrite m addr w v = .ok q)
    {x : Nat} (hx : ¬ (addr.toNat ≤ x ∧ x < addr.toNat + accessBytes w)) : q.read x = m.read x := by
  cases w with
  | byte =>
    cases h
    exact Memory.read_write_other m _ (by simp only [accessBytes] at hx; omega)
  | word =>
    by_cases ht : addr = topAddress
    · simp [memWrite, ht] at h
    · cases (memWrite_word m ht v).symm.trans h
      simp only [accessBytes] at hx
      rw [Memory.read_write_other _ _ (by omega), Memory.read_write_other _ _ (by omega)]

/-- R46: the one load that faults. -/
theorem memRead_error_iff (m : Memory) (addr : Word) (w : Width) :
    memRead m addr w = .error .memOutOfRange ↔ w = .word ∧ addr = topAddress := by
  cases w with
  | byte => simp
  | word => by_cases h : addr = topAddress <;> simp [memRead, h]

/-- R46: the one store that faults. -/
theorem memWrite_error_iff (m : Memory) (addr : Word) (w : Width) (v : Word) :
    memWrite m addr w v = .error .memOutOfRange ↔ w = .word ∧ addr = topAddress := by
  cases w with
  | byte => simp
  | word => by_cases h : addr = topAddress <;> simp [memWrite, h]

/-- Settles O20, from the laws of the two access primitives. -/
theorem storeChangesOnlyItsBytes : Obligations.StoreChangesOnlyItsBytes :=
  ⟨fun _ _ _ _ _ h => ⟨fun _ => memWrite_read_other h, fun hm => memWrite_wf hm h⟩,
    fun m addr w => ⟨memRead_error_iff m addr w, memWrite_error_iff m addr w⟩⟩

end Sys2Proof.Machine
end

section
/-! SUPPORT. Frames (40_control_loop.md section 3): what an instruction leaves unchanged and what it does not read, and
the branches (43_branch.md); the statements O33 to O37, O39 to O42 and O52. -/

namespace Sys2Proof.Machine

/-! ## The branches -/

theorem branchTarget_toNat (d : Byte) (s : State) :
    ((BitVec.ofInt 16 (branchTarget s d)).toNat : Int) = ((s.ip.toNat : Int) + d.toInt) % 65536 := by
  rw [BitVec.toNat_ofInt, branchTarget]
  omega

/-- Settles O33: a set `ZF` means no jump. -/
theorem jneNotTakenChangesNothing : Obligations.JneNotTakenChangesNothing := fun d _ hz => execJne_of_set d hz

/-- Settles O34: a target inside the range is its own remainder. -/
theorem jneTakenMovesIpBySignedDisplacement : Obligations.JneTakenMovesIpBySignedDisplacement := by
  intro d s hz hlo hhi
  refine ⟨BitVec.ofInt 16 (branchTarget s d), ?_, ?_⟩
  · exact (execJne_of_clear d hz).trans (by rw [jumpTo, if_pos ⟨hlo, hhi⟩])
  · rw [branchTarget_toNat]
    omega

/-- Settles O35: `ip` takes the target as a word, which is its remainder. -/
theorem jneOutOfRangeHalts : Obligations.JneOutOfRangeHalts := by
  intro d s hz hout
  refine ⟨BitVec.ofInt 16 (branchTarget s d), ?_, branchTarget_toNat d s⟩
  have hrange : ¬ (0 ≤ branchTarget s d ∧ branchTarget s d ≤ 65535) := by simp only [branchTarget]; omega
  exact (execJne_of_clear d hz).trans (by rw [jumpTo, if_neg hrange]; rfl)

/-- Settles O36: each of the nineteen is `noEffect` by definition. -/
theorem nineteenBranchesHaveNoEffect : Obligations.NineteenBranchesHaveNoEffect :=
  fun _ _ => ⟨rfl, rfl, rfl, rfl, rfl, rfl, rfl, rfl, rfl, rfl, rfl, rfl, rfl, rfl, rfl, rfl, rfl, rfl, rfl⟩

@[simp] theorem jumpTo_dmem (t : Int) (s : State) : (jumpTo t s).dmem = s.dmem := by
  simp only [jumpTo]; split <;> rfl

@[simp] theorem jumpTo_lastWrite (t : Int) (s : State) : (jumpTo t s).lastWrite = s.lastWrite := by
  simp only [jumpTo]; split <;> rfl

/-- R150: a branch is a `jne` or has no effect. -/
theorem branch_cases {i : Instr} (hb : i.mnemonic.isBranch = true) :
    (∃ d, i = .jne d) ∨ ∀ s, exec i s = .next s := by
  by_cases hj : i.mnemonic = .jne
  · exact .inl (eq_jne_of_mnemonic hj)
  · exact .inr (exec_of_inert hb hj)

theorem jumpTo_withData (t : Int) (s : State) (r : RegFile) (m : Memory) :
    jumpTo t { s with regs := r, dmem := m } = { jumpTo t s with regs := r, dmem := m } := by
  simp only [jumpTo]; split <;> rfl

/-- R151: `jne` carries registers and data memory through and does not read them. -/
theorem execJne_withData (d : Byte) (s : State) (r : RegFile) (m : Memory) :
    execJne d { s with regs := r, dmem := m } = mapNext (fun t => { t with regs := r, dmem := m }) (execJne d s) := by
  rcases Bool.eq_false_or_eq_true s.zf with hz | hz
  · rw [execJne_of_set d hz, execJne_of_set d (s := { s with regs := r, dmem := m }) hz, mapNext_next]
  · rw [execJne_of_clear d hz, execJne_of_clear d (s := { s with regs := r, dmem := m }) hz, mapNext_next,
      jumpTo_withData]
    rfl

/-- Settles O37: a jump writes `ip`, `status` and `halt_reason` alone. -/
theorem branchesTouchNoData : Obligations.BranchesTouchNoData := by
  intro i s hb
  rcases branch_cases hb with ⟨d, rfl⟩ | hinert
  · refine ⟨fun t h => ?_, execJne_withData d s⟩
    rcases execJne_next_cases h with rfl | rfl <;> simp
  · refine ⟨fun t h => ?_, fun r m => by rw [hinert, hinert, mapNext_next]⟩
    cases (hinert s).symm.trans h
    simp

/-! ## What a store leaves unchanged -/

@[simp] theorem storeOperand_status (o : Operand) (v : Word) (s : State) : (storeOperand o v s).status = s.status := by
  cases o with
  | memory m => obtain ⟨_, _, _, w⟩ := m; cases w <;> rfl
  | _ => rfl

@[simp] theorem storeOperand_haltReason (o : Operand) (v : Word) (s : State) :
    (storeOperand o v s).haltReason = s.haltReason := by
  cases o with
  | memory m => obtain ⟨_, _, _, w⟩ := m; cases w <;> rfl
  | _ => rfl

@[simp] theorem storeOperand_memory_regs (m : MemAccess) (v : Word) (s : State) :
    (storeOperand (.memory m) v s).regs = s.regs := by
  obtain ⟨_, _, _, w⟩ := m; cases w <;> rfl

@[simp] theorem storeOperand_memory_lastWrite (m : MemAccess) (v : Word) (s : State) :
    (storeOperand (.memory m) v s).lastWrite = s.lastWrite := by
  obtain ⟨_, _, _, w⟩ := m; cases w <;> rfl

/-- R45: a store into a memory operand that raises no fault is the store of R45. -/
theorem memWrite_of_storeOperand {m : MemAccess} {s : State} (h : operandAtTop (.memory m) s.regs = false) (v : Word) :
    memWrite s.dmem (effectiveAddress m s.regs) m.w v = .ok (storeOperand (.memory m) v s).dmem := by
  obtain ⟨b1, b2, d, w⟩ := m
  cases w with
  | byte => rfl
  | word => exact memWrite_word _ (by simpa [operandAtTop, topAddress] using h) v

/-! ## The instructions that write their destination -/

theorem isAlu_of_isWriter {m : Mnemonic} (h : m.isWriter = true) (hm : m ≠ .mov) : m.isAlu = true ∧ m ≠ .cmp := by
  cases m with
  | mov => exact absurd rfl hm
  | add | sub => exact ⟨rfl, nofun⟩
  | _ => cases h

theorem isBranch_of_not_isWriter {m : Mnemonic} (h : m.isWriter = false) (hc : m ≠ .cmp) : m.isBranch = true := by
  cases m with
  | mov | add | sub => cases h
  | cmp => exact absurd rfl hc
  | _ => rfl

/-- R120, R130: `mov`, `add` and `sub` store a value into their destination, and `mov` leaves the flags. -/
theorem exec_writer {i : Instr} {s t : State} (hi : i.mnemonic.isWriter = true) (hf : raisesMemFault i s = false)
    (h : exec i s = .next t) : ∃ v x y, t = (storeOperand i.dst v s).withFlags x y ∧
      (i.mnemonic = .mov → x = s.zf ∧ y = s.sf) := by
  by_cases hm : i.mnemonic = .mov
  · cases (exec_mov_inRange hm hf).symm.trans h
    exact ⟨_, s.zf, s.sf, by rw [← storeOperand_withFlags]; rfl, fun _ => ⟨rfl, rfl⟩⟩
  · obtain ⟨ha, hc⟩ := isAlu_of_isWriter hi hm
    obtain ⟨w, hw⟩ := width_of_isData (isData_of_isAlu ha)
    have he := exec_alu_inRange ha hw hf
    rw [writesBack_aluOpOf ha hc, if_pos rfl] at he
    cases he.symm.trans h
    exact ⟨_, _, _, rfl, fun h => absurd h hm⟩

/-- R130, R137: `cmp` changes the two flags. -/
theorem exec_cmp {i : Instr} {s t : State} (hm : i.mnemonic = .cmp) (hf : raisesMemFault i s = false)
    (h : exec i s = .next t) : ∃ x y, t = s.withFlags x y := by
  obtain ⟨w, hw⟩ := width_of_isData (i := i) (by rw [hm]; rfl)
  cases (cmpSetsTheFlagsOfTheDifference i s _ hm hw hf).symm.trans h
  exact ⟨_, _, rfl⟩

/-- Settles O39: a register write changes its own slot, and of it only the half of a byte access. -/
theorem registerDestinationFrame : Obligations.RegisterDestinationFrame := by
  intro i s t a hi hdst hf h
  obtain ⟨v, x, y, rfl, hflags⟩ := exec_writer hi hf h
  rw [hdst]
  refine ⟨fun j hj => regWrite_get_other a v s.regs hj, fun hw b hb => ?_, hflags, rfl, rfl, rfl, rfl, rfl,
    fun _ => rfl⟩
  obtain ⟨c, w⟩ := a
  cases hw
  exact regRead_regWrite_other_byte (Ne.symm hb) v s.regs

/-- Settles O40: the store is that of R45, which keeps the other bytes. -/
theorem memoryDestinationFrame : Obligations.MemoryDestinationFrame := by
  intro i s t m hi hdst hf h
  obtain ⟨v, x, y, rfl, hflags⟩ := exec_writer hi hf h
  have htop : operandAtTop (.memory m) s.regs = false := hdst ▸ (Bool.or_eq_false_iff.mp hf).1
  rw [hdst]
  exact ⟨fun k => memWrite_read_other (memWrite_of_storeOperand htop v), storeOperand_memory_regs m v s,
    storeOperand_memory_lastWrite m v s, hflags, storeOperand_ip _ v s, storeOperand_status _ v s,
    storeOperand_haltReason _ v s, storeOperand_imem _ v s⟩

/-- Settles O41: the next state is the old one with other flags. -/
theorem compareWritesOnlyFlags : Obligations.CompareWritesOnlyFlags := by
  intro i s t hm hf h
  obtain ⟨x, y, rfl⟩ := exec_cmp hm hf h
  exact ⟨rfl, rfl, rfl, rfl, rfl, rfl, fun _ => rfl⟩

/-! ## What no instruction reads -/

/-- A change of the state in fields that no instruction reads: it keeps what an instruction reads, and once it is made,
it does not matter whether it was made before a store, a fault or a jump as well. -/
structure Unread (f : State → State) : Prop where
  regs : ∀ s, (f s).regs = s.regs
  dmem : ∀ s, (f s).dmem = s.dmem
  zf : ∀ s, (f s).zf = s.zf
  ip : ∀ s, (f s).ip = s.ip
  twice : ∀ s, f (f s) = f s
  store : ∀ o v s, f (storeOperand o v (f s)) = f (storeOperand o v s)
  setFlags : ∀ w res s, f (s.setFlags w res) = (f s).setFlags w res
  fault : ∀ e s, f ((f s).raiseFault e) = f (s.raiseFault e)
  jump : ∀ t s, f (jumpTo t (f s)) = f (jumpTo t s)

section
variable {f : State → State} (hu : Unread f)
include hu

theorem Unread.operandValue (o : Operand) (s : State) : operandValue o (f s) = operandValue o s := by
  cases o with
  | memory m => simp only [Machine.operandValue, hu.regs, hu.dmem]
  | register a => simp only [Machine.operandValue, hu.regs]
  | _ => rfl

theorem Unread.outOfRange (p : Place) (s : State) : outOfRange p (f s) = outOfRange p s := by
  rw [outOfRange_eq, outOfRange_eq, hu.regs]

theorem Unread.sourceOutOfRange (v : Source) (s : State) : sourceOutOfRange v (f s) = sourceOutOfRange v s := by
  rw [Machine.sourceOutOfRange, Machine.sourceOutOfRange, hu.regs]

theorem Unread.mov (dst : Place) (src : Source) (s : State) :
    mapNext f (mov dst src (f s)) = mapNext f (mov dst src s) := by
  rw [mov_eq, mov_eq, hu.outOfRange, hu.sourceOutOfRange]
  split
  · rw [mapNext_next, mapNext_next, hu.fault]
  · rw [hu.operandValue, mapNext_next, mapNext_next, hu.store]

theorem Unread.alu (op : AluOp) (dst : Place) (src : Source) (s : State) :
    mapNext f (alu op dst src (f s)) = mapNext f (alu op dst src s) := by
  rw [alu_eq, alu_eq, hu.outOfRange, hu.sourceOutOfRange]
  split
  · rw [mapNext_next, mapNext_next, hu.fault]
  · rw [mapNext_next, mapNext_next, aluState, aluState, hu.setFlags, hu.setFlags]
    simp only [hu.operandValue]
    split
    · rw [hu.store]
    · rw [hu.twice]

theorem Unread.execJne (d : Byte) (s : State) : mapNext f (execJne d (f s)) = mapNext f (execJne d s) := by
  cases hz : s.zf with
  | true => rw [execJne_of_set d hz, execJne_of_set d ((hu.zf s).trans hz), mapNext_next, mapNext_next, hu.twice]
  | false => rw [execJne_of_clear d hz, execJne_of_clear d ((hu.zf s).trans hz), mapNext_next, mapNext_next,
      branchTarget, hu.ip, hu.jump, branchTarget]

/-- R105: no instruction reads the fields of the change. -/
theorem Unread.exec (i : Instr) (s : State) : mapNext f (exec i (f s)) = mapNext f (exec i s) := by
  rcases exec_cases i s with ⟨dst, src, hd, hm, -⟩ | ⟨dst, src, hd, ha, -⟩ | ⟨d, rfl, -⟩ | ⟨hb, hj, -, -⟩
  · rw [exec_of_mov hd hm, exec_of_mov hd hm, hu.mov]
  · rw [exec_of_alu hd ha, exec_of_alu hd ha, hu.alu]
  · exact hu.execJne d s
  · rw [exec_of_inert hb hj, exec_of_inert hb hj, mapNext_next, mapNext_next, hu.twice]

end

/-- R40: the state with another image. -/
def State.withImage (image : List Byte) (s : State) : State := { s with imem := image }

theorem unread_withImage (image : List Byte) : Unread (State.withImage image) where
  regs _ := rfl
  dmem _ := rfl
  zf _ := rfl
  ip _ := rfl
  twice _ := rfl
  store o v s := by
    cases o with
    | memory m => obtain ⟨_, _, _, w⟩ := m; cases w <;> rfl
    | _ => rfl
  setFlags _ _ _ := rfl
  fault _ _ := rfl
  jump t s := by
    simp only [jumpTo]
    split <;> rfl

/-- R18: the state without its last write. -/
def State.forgetLastWrite (s : State) : State := { s with lastWrite := none }

theorem unread_forgetLastWrite : Unread State.forgetLastWrite where
  regs _ := rfl
  dmem _ := rfl
  zf _ := rfl
  ip _ := rfl
  twice _ := rfl
  store o v s := by
    cases o with
    | memory m => obtain ⟨_, _, _, w⟩ := m; cases w <;> rfl
    | _ => rfl
  setFlags _ _ _ := rfl
  fault _ _ := rfl
  jump t s := by
    simp only [jumpTo]
    split <;> rfl

/-- Settles O52: the image is not read, and an instruction run with it keeps it. -/
theorem noInstructionReadsInstructionMemory : Obligations.NoInstructionReadsInstructionMemory := by
  intro i s image
  obtain ⟨t, ht⟩ := exec_next i (s.withImage image)
  have himage : t.withImage image = t := by
    rw [State.withImage, ← show t.imem = image from exec_imem ht]
  have hexec := (unread_withImage image).exec i s
  rw [ht, mapNext_next, himage] at hexec
  exact ht.trans hexec

/-! ## The last write -/

theorem exec_lastWrite_of_fault {i : Instr} {s t : State} (hf : raisesMemFault i s = true) (h : exec i s = .next t) :
    t.lastWrite = s.lastWrite := by
  cases (exec_of_fault hf).symm.trans h
  rfl

/-- R18: an instruction that is no `mov`, `add` or `sub` keeps the last write. -/
theorem exec_lastWrite_of_not_writer {i : Instr} {s t : State} (hi : i.mnemonic.isWriter = false)
    (h : exec i s = .next t) : t.lastWrite = s.lastWrite := by
  cases hf : raisesMemFault i s with
  | true => exact exec_lastWrite_of_fault hf h
  | false =>
    by_cases hc : i.mnemonic = .cmp
    · obtain ⟨x, y, rfl⟩ := exec_cmp hc hf h
      rfl
    · obtain ⟨-, -, -, hlast, -⟩ := (branchesTouchNoData i s (isBranch_of_not_isWriter hi hc)).1 t h
      exact hlast

/-- R18: an instruction with a memory destination keeps the last write. -/
theorem exec_lastWrite_of_memory {i : Instr} {s t : State} {m : MemAccess} (hdst : i.dst = .memory m)
    (h : exec i s = .next t) : t.lastWrite = s.lastWrite := by
  cases hf : raisesMemFault i s with
  | true => exact exec_lastWrite_of_fault hf h
  | false =>
    cases hi : i.mnemonic.isWriter with
    | false => exact exec_lastWrite_of_not_writer hi h
    | true =>
      obtain ⟨-, -, hlast, -⟩ := memoryDestinationFrame i s t m hi hdst hf h
      exact hlast

/-- R101: a step does not read the last write. -/
theorem step_forgetLastWrite (s : State) :
    mapNext State.forgetLastWrite (step s.forgetLastWrite) = mapNext State.forgetLastWrite (step s) := by
  have hfetch : fetch s.forgetLastWrite = fetch s := rfl
  simp only [step, hfetch]
  cases fetch s with
  | run i bytes => exact unread_forgetLastWrite.exec i (s.advance bytes.length)
  | _ => rfl

/-- Settles O42: a register write sets the last write, nothing else touches it, and nothing reads it. -/
theorem lastWriteIsBookkeepingOnly : Obligations.LastWriteIsBookkeepingOnly := by
  refine ⟨fun i s t h => ⟨fun a hi hdst hf => ?_, ?_⟩, fun s x => ?_⟩
  · obtain ⟨v, x, y, rfl, -⟩ := exec_writer hi hf h
    rw [hdst]
    rfl
  · rintro (hi | ⟨m, hdst⟩ | hf)
    · exact exec_lastWrite_of_not_writer hi h
    · exact exec_lastWrite_of_memory hdst h
    · exact exec_lastWrite_of_fault hf h
  · exact (step_forgetLastWrite { s with lastWrite := x }).symm.trans (step_forgetLastWrite s)

end Sys2Proof.Machine
end

section
/-! SUPPORT. The operands of the output record (30_encoding.md sections 4 to 7): their variants, their values shape by
shape, the base registers, and the encodings with the same operands; the statements O10 to O13. -/

namespace Sys2Proof.Machine

/-! ## Variants -/

/-- R69 to R74: the operands of a data instruction are a register and the r/m operand, or a place and an immediate. -/
theorem dataOperands_cases {i : Instr} {dst : Place} {src : Source} (h : i.dataOperands = some (dst, src)) :
    (∃ d w reg rm, dst = rmRegDst d w reg rm ∧ src = rmRegSrc d w reg rm) ∨ ∃ v, src = .immediate v := by
  cases i with
  | movRmReg d w reg rm | addRmReg d w reg rm | subRmReg d w reg rm | cmpRmReg d w reg rm =>
    cases h
    exact .inl ⟨d, w, reg, rm, rfl, rfl⟩
  | movImmRm | movImmReg | addImmRm | subImmRm | cmpImmRm | addImmAcc | subImmAcc | cmpImmAcc =>
    cases h
    exact .inr ⟨_, rfl⟩
  | _ => cases h

/-- R75, R150: a branch has a displacement byte and no data operands. -/
theorem operands_of_branch {i : Instr} (h : i.mnemonic.isBranch = true) :
    (∃ d, i.dst = .immediate (zext16 d)) ∧ i.src = .none := by
  cases i with
  | movRmReg | movImmRm | movImmReg | addRmReg | addImmRm | addImmAcc => cases h
  | subRmReg | subImmRm | subImmAcc | cmpRmReg | cmpImmRm | cmpImmAcc => cases h
  | _ => exact ⟨⟨_, rfl⟩, rfl⟩

theorem place_operand_ne_immediate (p : Place) (v : Word) : p.operand ≠ .immediate v := by
  cases p <;> simp [Place.operand]

theorem source_operand_ne_none (v : Source) : v.operand ≠ .none := by
  cases v with
  | place p => cases p <;> simp [Source.operand, Place.operand]
  | immediate x => simp [Source.operand]

/-- R69: of the two operands of the shape `RM_REG` one is a register. -/
theorem rmReg_not_both_memory (d : Bool) (w : Width) (reg : BitVec 3) (rm : RmField) (m n : MemAccess) :
    ¬ ((rmRegDst d w reg rm).operand = .memory m ∧ (rmRegSrc d w reg rm).operand = .memory n) := by
  rintro ⟨hdst, hsrc⟩
  cases d with
  | true => cases hdst
  | false => cases hsrc

theorem operandWidth_rmRegDst (d : Bool) (w : Width) (reg : BitVec 3) (rm : RmField) :
    operandWidth (rmRegDst d w reg rm).operand = some w := by
  cases d with
  | true => rfl
  | false => exact operandWidth_place w rm

theorem operandWidth_rmRegSrc (d : Bool) (w : Width) (reg : BitVec 3) (rm : RmField) :
    operandWidth (rmRegSrc d w reg rm).operand = some w := by
  cases d with
  | true => exact operandWidth_place w rm
  | false => rfl

/-- Settles O10: a branch has an immediate and no source; the others are of the shapes of `dataOperands_cases`. -/
theorem operandVariantsOfTheRecord : Obligations.OperandVariantsOfTheRecord := by
  intro i
  by_cases hb : i.mnemonic.isBranch = true
  · obtain ⟨⟨d, hdst⟩, hsrc⟩ := operands_of_branch hb
    rw [hdst, hsrc]
    exact ⟨fun _ _ ⟨h, _⟩ => (nomatch h), ⟨fun _ => hb, fun _ => ⟨_, rfl⟩⟩, ⟨fun _ => hb, fun _ => rfl⟩,
      fun h => absurd hb (by simp [h])⟩
  · obtain ⟨dst, src, hd⟩ := data_of_isData (i := i) (by simpa [Mnemonic.isBranch] using hb)
    obtain ⟨hdst, hsrc⟩ := operands_of_data hd
    rw [hdst, hsrc]
    refine ⟨?variants, ⟨fun ⟨v, hv⟩ => absurd hv (place_operand_ne_immediate dst v), fun h => absurd h hb⟩,
      ⟨fun hn => absurd hn (source_operand_ne_none src), fun h => absurd h hb⟩, fun _ => ?width⟩
    case variants =>
      rcases dataOperands_cases hd with ⟨d, w, reg, rm, rfl, rfl⟩ | ⟨v, rfl⟩
      · exact rmReg_not_both_memory d w reg rm
      · exact fun _ _ ⟨_, h⟩ => nomatch h
    case width =>
      rcases dataOperands_cases hd with ⟨d, w, reg, rm, rfl, rfl⟩ | ⟨v, rfl⟩
      · exact ⟨w, operandWidth_rmRegDst d w reg rm, .inl (operandWidth_rmRegSrc d w reg rm)⟩
      · exact ⟨opWidth dst, opWidth_eq dst, .inr rfl⟩

/-! ## Values -/

/-- Settles O11, shape by shape: the operands are there by definition, and the two extensions are numbers. -/
theorem operandsOfEachShape : Obligations.OperandsOfEachShape := by
  intro s w reg ign k rm x v
  simp only [← zext16_eq_ofNat, ← sext16_eq_ofInt, List.forall_mem_cons, List.not_mem_nil, false_imp_iff, implies_true,
    and_true]
  refine ⟨?rmReg, rfl, rfl, rfl, rfl, rfl, ?immRm, ?short, ?accumulator, fun _ => rfl, rfl, rfl, ?branch⟩
  case rmReg => exact ⟨⟨rfl, rfl, rfl, rfl⟩, ⟨rfl, rfl, rfl, rfl⟩, ⟨rfl, rfl, rfl, rfl⟩, ⟨rfl, rfl, rfl, rfl⟩⟩
  case immRm =>
    exact ⟨⟨fun _ => rfl, rfl, rfl⟩, ⟨fun _ => rfl, rfl, rfl⟩, ⟨fun _ => rfl, rfl, rfl⟩, ⟨fun _ => rfl, rfl, rfl⟩⟩
  case short => exact ⟨rfl, rfl, rfl⟩
  case accumulator => exact ⟨⟨fun _ => rfl, rfl, rfl⟩, ⟨fun _ => rfl, rfl, rfl⟩, ⟨fun _ => rfl, rfl, rfl⟩⟩
  case branch =>
    exact ⟨⟨rfl, rfl⟩, ⟨rfl, rfl⟩, ⟨rfl, rfl⟩, ⟨rfl, rfl⟩, ⟨rfl, rfl⟩, ⟨rfl, rfl⟩, ⟨rfl, rfl⟩, ⟨rfl, rfl⟩, ⟨rfl, rfl⟩,
      ⟨rfl, rfl⟩, ⟨rfl, rfl⟩, ⟨rfl, rfl⟩, ⟨rfl, rfl⟩, ⟨rfl, rfl⟩, ⟨rfl, rfl⟩, ⟨rfl, rfl⟩, ⟨rfl, rfl⟩, ⟨rfl, rfl⟩,
      ⟨rfl, rfl⟩, ⟨rfl, rfl⟩⟩

/-- R48: without displacement the address is the sum of the two bases. -/
theorem effectiveAddress_two_bases (b c : Slot) (w : Width) (r : RegFile) :
    effectiveAddress ⟨some b, some c, 0x0000#16, w⟩ r = r.get b + r.get c := BitVec.add_zero _

/-- R48: with one base and no displacement the address is that register. -/
theorem effectiveAddress_one_base (b : Slot) (w : Width) (r : RegFile) :
    effectiveAddress ⟨some b, none, 0x0000#16, w⟩ r = r.get b := by
  simp only [effectiveAddress, baseValue, BitVec.add_zero]

/-- Settles O12, code by code. -/
theorem baseRegistersOfTheRmCodes : Obligations.BaseRegistersOfTheRmCodes := by
  intro r w
  have two := fun b c => effectiveAddress_two_bases b c w r
  have one := fun b => effectiveAddress_one_base b w r
  exact ⟨⟨rfl, two .bx .si⟩, ⟨rfl, two .bx .di⟩, ⟨rfl, two .bp .si⟩, ⟨rfl, two .bp .di⟩, ⟨rfl, one .si⟩, ⟨rfl, one .di⟩,
    ⟨rfl, one .bp⟩, ⟨rfl, one .bx⟩⟩

/-! ## Encodings that say the same thing -/

/-- R76, R78: no displacement is a displacement byte of zero. -/
theorem place_noDisp (c : BitVec 3) (w : Width) : (RmField.noDisp c).place w = (RmField.disp8 c 0x00#8).place w := rfl

/-- R78: a displacement byte is the word it is extended to. -/
theorem place_disp8 (c : BitVec 3) (d : Byte) (w : Width) :
    (RmField.disp8 c d).place w = (RmField.disp16 c (sext16 d)).place w := rfl

section
variable {f g : RmField} (h : ∀ w, f.place w = g.place w)
include h

theorem rmRegDst_congr (d : Bool) (w : Width) (reg : BitVec 3) : rmRegDst d w reg f = rmRegDst d w reg g := by
  rw [rmRegDst, rmRegDst, h]

theorem rmRegSrc_congr (d : Bool) (w : Width) (reg : BitVec 3) : rmRegSrc d w reg f = rmRegSrc d w reg g := by
  rw [rmRegSrc, rmRegSrc, h]

theorem mov_rmReg_congr (d : Bool) (w : Width) (reg : BitVec 3) (s : State) :
    mov (rmRegDst d w reg f) (rmRegSrc d w reg f) s = mov (rmRegDst d w reg g) (rmRegSrc d w reg g) s := by
  rw [rmRegDst_congr h, rmRegSrc_congr h]

theorem alu_rmReg_congr (op : AluOp) (d : Bool) (w : Width) (reg : BitVec 3) (s : State) :
    alu op (rmRegDst d w reg f) (rmRegSrc d w reg f) s = alu op (rmRegDst d w reg g) (rmRegSrc d w reg g) s := by
  rw [rmRegDst_congr h, rmRegSrc_congr h]

theorem mov_rm_congr (w : Width) (src : Source) (s : State) : mov (f.place w) src s = mov (g.place w) src s := by
  rw [h]

theorem alu_rm_congr (op : AluOp) (w : Width) (src : Source) (s : State) :
    alu op (f.place w) src s = alu op (g.place w) src s := by rw [h]

end

/-- Settles O13: the first twenty-one pairs run one operation on one pair of operands; in the last clause two r/m fields
of one place do. -/
theorem redundantEncodingsRunAlike : Obligations.RedundantEncodingsRunAlike := by
  intro s d sx w a b c ign ign' rm imm x v
  refine ⟨rfl, rfl, rfl, rfl, rfl, rfl, rfl, rfl, rfl, rfl, rfl, rfl, rfl, rfl, rfl, rfl, rfl, rfl, rfl, rfl, rfl, ?_⟩
  intro build hbuild
  have key (f g : RmField) (h : ∀ w, f.place w = g.place w) : exec (build f) s = exec (build g) s := by
    simp only [List.mem_cons, List.not_mem_nil, or_false] at hbuild
    rcases hbuild with rfl | rfl | rfl | rfl | rfl | rfl | rfl | rfl
    · exact mov_rmReg_congr h d w a s
    · exact alu_rmReg_congr h .add d w a s
    · exact alu_rmReg_congr h .sub d w a s
    · exact alu_rmReg_congr h .cmp d w a s
    · exact mov_rm_congr h w (.immediate (imm.value w)) s
    · exact alu_rm_congr h .add w (.immediate (imm.value w)) s
    · exact alu_rm_congr h .sub w (.immediate (imm.value w)) s
    · exact alu_rm_congr h .cmp w (.immediate (imm.value w)) s
  exact ⟨key _ _ (place_noDisp c), key _ _ (place_disp8 c x)⟩

end Sys2Proof.Machine
end

section
/-! SUPPORT. The invariant of the machine (10_state.md, 40_control_loop.md): all an instruction can do, said once; reset
and every step give the invariant, so every run of a legal image has it; the statements O50 and O53 to O56. -/

namespace Sys2Proof.Machine

/-! ## All an instruction can do -/

/-- R105: an instruction takes the memory fault; or stores a value into its destination and writes flags; or writes
flags alone; or is a taken `jne`; or changes nothing. -/
theorem exec_next_cases {i : Instr} {s t : State} (h : exec i s = .next t) :
    (raisesMemFault i s = true ∧ t = s.raiseFault .memOutOfRange) ∨
    (raisesMemFault i s = false ∧ ∃ v x y, t = (storeOperand i.dst v s).withFlags x y) ∨
    (∃ x y, t = s.withFlags x y) ∨
    (∃ d, i = .jne d ∧ s.zf = false ∧ t = jumpTo (branchTarget s d) s) ∨ t = s := by
  cases hf : raisesMemFault i s with
  | true => exact .inl ⟨rfl, by cases (exec_of_fault hf).symm.trans h; rfl⟩
  | false =>
    cases hi : i.mnemonic.isWriter with
    | true =>
      obtain ⟨v, x, y, ht, -⟩ := exec_writer hi hf h
      exact .inr (.inl ⟨rfl, v, x, y, ht⟩)
    | false =>
      by_cases hc : i.mnemonic = .cmp
      · exact .inr (.inr (.inl (exec_cmp hc hf h)))
      rcases branch_cases (isBranch_of_not_isWriter hi hc) with ⟨d, rfl⟩ | hinert
      · cases hz : s.zf with
        | true => cases (execJne_of_set d hz).symm.trans h; exact .inr (.inr (.inr (.inr rfl)))
        | false => cases (execJne_of_clear d hz).symm.trans h; exact .inr (.inr (.inr (.inl ⟨d, rfl, rfl, rfl⟩)))
      · cases (hinert s).symm.trans h; exact .inr (.inr (.inr (.inr rfl)))

/-- R45, R107: a store into an operand in range keeps the canonical form of data memory. -/
theorem storeOperand_dmem_wf {o : Operand} {s : State} (hm : s.dmem.wf) (ho : operandAtTop o s.regs = false)
    (v : Word) : (storeOperand o v s).dmem.wf := by
  cases o with
  | memory m => exact memWrite_wf hm (memWrite_of_storeOperand ho v)
  | _ => exact hm

/-- R42: every instruction keeps the canonical form of data memory. -/
theorem exec_dmem_wf {i : Instr} {s t : State} (hm : s.dmem.wf) (h : exec i s = .next t) : t.dmem.wf := by
  rcases exec_next_cases h with ⟨-, rfl⟩ | ⟨hf, v, x, y, rfl⟩ | ⟨x, y, rfl⟩ | ⟨d, -, -, rfl⟩ | rfl
  · exact hm
  · exact storeOperand_dmem_wf hm (Bool.or_eq_false_iff.mp hf).1 v
  · exact hm
  · rw [jumpTo_dmem]; exact hm
  · exact hm

/-- R141: no instruction sets both flags. -/
theorem exec_flags_exclusive {i : Instr} {s t : State} (hs : ¬ (s.zf = true ∧ s.sf = true)) (h : exec i s = .next t) :
    ¬ (t.zf = true ∧ t.sf = true) := by
  cases hf : raisesMemFault i s with
  | true => cases (exec_of_fault hf).symm.trans h; exact hs
  | false =>
    cases ha : i.mnemonic.isAlu with
    | false =>
      obtain ⟨hz, hsf⟩ := exec_flags_of_not_alu ha h
      rw [hz, hsf]
      exact hs
    | true =>
      obtain ⟨w, hw⟩ := width_of_isData (isData_of_isAlu ha)
      obtain ⟨u, hu, res, -, -, -, -, -, hflags, -⟩ := aluResultAndFlagsAsIntegers i s _ ha hw hf
      cases hu.symm.trans h
      exact hflags

/-- R109, R151: the run goes on after an instruction, unless it took the memory fault or is a taken `jne` out of
range. -/
theorem exec_status_cases {i : Instr} {s t : State} (h : exec i s = .next t) :
    (t.status = s.status ∧ t.haltReason = s.haltReason) ∨
    (raisesMemFault i s = true ∧ t = s.raiseFault .memOutOfRange) ∨
    (∃ d, i = .jne d ∧ s.zf = false ∧ ¬ (0 ≤ branchTarget s d ∧ branchTarget s d ≤ 65535) ∧
      t = ({ s with ip := BitVec.ofInt 16 (branchTarget s d) }).raiseHalt .truncatedInstruction) := by
  rcases exec_next_cases h with hfault | ⟨-, v, x, y, rfl⟩ | ⟨x, y, rfl⟩ | ⟨d, hd, hz, rfl⟩ | rfl
  · exact .inr (.inl hfault)
  · exact .inl ⟨storeOperand_status _ v s, storeOperand_haltReason _ v s⟩
  · exact .inl ⟨rfl, rfl⟩
  · by_cases ht : 0 ≤ branchTarget s d ∧ branchTarget s d ≤ 65535
    · exact .inl (by rw [jumpTo, if_pos ht]; exact ⟨rfl, rfl⟩)
    · exact .inr (.inr ⟨d, hd, hz, ht, by rw [jumpTo, if_neg ht]⟩)
  · exact .inl ⟨rfl, rfl⟩

/-! ## Steps keep the invariant -/

/-- R112: a running state with the other parts of the invariant has it. -/
theorem machineInv_of_running {s : State} (hm : s.dmem.wf) (hi : s.imem.length ≤ Config.imemMax)
    (hs : s.status = .running) (hr : s.haltReason = .none) (hf : ¬ (s.zf = true ∧ s.sf = true)) : MachineInv s where
  memory := hm
  image := hi
  status := by rw [State.statusAgrees, hs]; exact hr
  place := by rw [State.ipAgrees, hr]; trivial
  flags := hf

/-- R28: a running state with the invariant has no halt reason. -/
theorem MachineInv.haltReason_of_running {s : State} (h : MachineInv s) (hs : s.status = .running) :
    s.haltReason = .none := by
  have := h.status
  rwa [State.statusAgrees, hs] at this

/-- R28, R112: a halt with a reason of its own, and `ip` where the reason says, keeps the invariant. -/
theorem MachineInv.raiseHalt {s : State} (h : MachineInv s) {r : HaltReason}
    (hr : r = .endOfProgram ∨ r = .unrecognizedOpcode ∨ r = .truncatedInstruction) (hip : (s.raiseHalt r).ipAgrees) :
    MachineInv (s.raiseHalt r) where
  memory := h.memory
  image := h.image
  status := hr
  place := hip
  flags := h.flags

/-- R105: an instruction run with `ip` past it, inside the image, keeps the invariant. -/
theorem exec_keeps_inv {i : Instr} {s t : State} (hinv : MachineInv s) (hs : s.status = .running)
    (hip : 2 ≤ s.ip.toNat ∧ s.ip.toNat ≤ s.imem.length) (h : exec i s = .next t) : MachineInv t := by
  rcases exec_status_cases h with ⟨hst, hre⟩ | ⟨-, rfl⟩ | ⟨d, -, -, -, rfl⟩
  · exact machineInv_of_running (exec_dmem_wf hinv.memory h) (exec_imem h ▸ hinv.image) (hst.trans hs)
      (hre.trans (hinv.haltReason_of_running hs)) (exec_flags_exclusive hinv.flags h)
  · exact ⟨hinv.memory, hinv.image, rfl, hip, hinv.flags⟩
  · exact ⟨hinv.memory, hinv.image, .inr (.inr rfl), trivial, hinv.flags⟩

/-- R186: bytes that are Unrecognized lie inside the image. -/
theorem ip_lt_of_unrecognized {s : State} (h : decode s.bytesAtIp = .unrecognized) : s.ip.toNat < s.imem.length := by
  by_contra hge
  rw [State.bytesAtIp, List.drop_eq_nil_of_le (Nat.le_of_not_lt hge)] at h
  cases h

/-- Settles O55, along what a step can have done. -/
theorem everyStepKeepsTheInvariant : Obligations.EveryStepKeepsTheInvariant := by
  intro s t hinv h
  rcases step_next_cases h with ⟨-, rfl⟩ | ⟨hs, hl, ⟨he, rfl⟩ | ⟨-, hd, rfl⟩ | ⟨-, -, rfl⟩ |
    ⟨i, bytes, rest, -, -, h2, hle, hexec⟩⟩
  · exact hinv
  · exact hinv.raiseHalt (.inl rfl) he
  · exact hinv.raiseHalt (.inr (.inl rfl)) (ip_lt_of_unrecognized hd)
  · exact hinv.raiseHalt (.inr (.inr rfl)) trivial
  · have hadv : MachineInv (s.advance bytes.length) :=
      machineInv_of_running hinv.memory hl hs (hinv.haltReason_of_running hs) hinv.flags
    have hip := advance_toNat hl hle
    exact exec_keeps_inv hadv hs (by rw [hip]; exact ⟨by omega, hle⟩) hexec

/-! ## Runs from reset -/

/-- Settles O54: memory is empty, the flags are clear, and there is no halt reason. -/
theorem invariantHoldsAfterReset : Obligations.InvariantHoldsAfterReset := by
  have hboot (image : List Byte) (h : image.length ≤ 65535) : MachineInv (State.boot image) :=
    machineInv_of_running reset_memory_wf h rfl rfl (by simp [State.reset, Config.resetFlag])
  exact ⟨hboot [] (Nat.zero_le _), hboot⟩

/-- Settles O53, field by field. -/
theorem resetGivesTheSpecsState : Obligations.ResetGivesTheSpecsState :=
  fun _ _ => ⟨fun j => by cases j <;> rfl, rfl, rfl, rfl, rfl, rfl, rfl, fun _ => rfl, rfl, rfl, rfl⟩

/-- R101: a step of a machine with a legal image answers a next state. -/
theorem step_next_of_legal {s : State} (hl : s.imem.length ≤ Config.imemMax) : ∃ t, step s = .next t := by
  rcases fetch_cases s with ⟨-, hf⟩ | ⟨-, hlong, -⟩ | ⟨-, -, -, hf⟩ | ⟨-, -, -, -, hf⟩ | ⟨-, -, -, -, hf⟩ |
    ⟨-, -, i, bytes, -, -, -, -, -, hf⟩
  · exact ⟨s, by rw [step, hf]⟩
  · exact absurd hl (Nat.not_le_of_lt hlong)
  · exact ⟨_, by rw [step, hf]⟩
  · exact ⟨_, by rw [step, hf]⟩
  · exact ⟨_, by rw [step, hf]⟩
  · obtain ⟨t, ht⟩ := exec_next i (s.advance bytes.length)
    exact ⟨t, by rw [step, hf]; exact ht⟩

/-- R101, R202: a step of a running machine with an image too long is refused. -/
theorem step_of_overlong {s : State} (hs : s.status = .running) (hl : Config.imemMax < s.imem.length) :
    step s = .refused .imageTooLong := by
  simp [step, fetch, hs, hl]

/-- Settles O50: a step either answers a next state or is refused for its image. -/
theorem stepIsRefusedOnlyForAnOverlongImage : Obligations.StepIsRefusedOnlyForAnOverlongImage := by
  intro s
  by_cases hlong : s.status = .running ∧ Config.imemMax < s.imem.length
  · rw [step_of_overlong hlong.1 hlong.2]
    refine ⟨nofun, fun r => ⟨fun h => ?_, fun ⟨_, _, h⟩ => by rw [h]⟩⟩
    cases h
    exact ⟨hlong.1, hlong.2, rfl⟩
  · obtain ⟨t, ht⟩ : ∃ t, step s = .next t := by
      by_cases hs : s.status = .running
      · exact step_next_of_legal (Nat.le_of_not_lt fun hl => hlong ⟨hs, hl⟩)
      · exact ⟨s, step_of_not_running hs⟩
    rw [ht]
    exact ⟨nofun, fun r => ⟨nofun, fun ⟨hs, hl, _⟩ => absurd ⟨hs, hl⟩ hlong⟩⟩

/-- R112: a run from a state with the invariant reaches a state with it and the same image. -/
theorem runSteps_keeps_inv (k : Nat) {s : State} (hinv : MachineInv s) :
    ∃ t, runSteps k s = .next t ∧ MachineInv t ∧ t.imem = s.imem := by
  induction k generalizing s with
  | zero => exact ⟨s, runSteps_zero s, hinv, rfl⟩
  | succ k ih =>
    obtain ⟨u, hu⟩ := step_next_of_legal hinv.image
    obtain ⟨t, ht, htinv, himem⟩ := ih (everyStepKeepsTheInvariant s u hinv hu)
    exact ⟨t, by rw [runSteps_succ hu, ht], htinv, himem.trans (step_imem hu)⟩

/-- Settles O56: reset has the invariant. -/
theorem everyRunOfALegalImageHasAState : Obligations.EveryRunOfALegalImageHasAState :=
  fun image k hl => runSteps_keeps_inv k (invariantHoldsAfterReset.2 image hl)

end Sys2Proof.Machine
end

section
/-! SUPPORT. The steps of a running machine (40_control_loop.md, 60_exceptions.md): which instruction runs, the stopping
conditions, where every stop leaves the machine, and the Report; the statements O38, O43, O46, O48 and O57. -/

namespace Sys2Proof.Machine

/-! ## The instruction at ip -/

/-- R41: the bytes at `ip` lie inside the image. -/
theorem bytesAtIp_length (s : State) : s.bytesAtIp.length = s.imem.length - s.ip.toNat := List.length_drop ..

/-- Settles O43: an encoding decodes to its instruction, and a nonempty one at `ip` ends inside the image. -/
theorem stepRunsTheInstructionAtIp : Obligations.StepRunsTheInstructionAtIp := by
  intro s i rest hwf hs hl hbytes
  have hdec : decode s.bytesAtIp = .ok i rest := by
    rw [State.bytesAtIp, hbytes]
    exact encodedInstructionDecodesToItself i rest hwf
  have hlen := bytesAtIp_length s
  rw [State.bytesAtIp, hbytes, List.length_append] at hlen
  have hpos : 2 ≤ (encode i).length := by
    obtain ⟨hlength, hge, -⟩ := encode_length i hwf
    rw [hlength]
    exact hge
  exact ⟨step_of_decode hs hl hdec hbytes, advance_toNat (n := (encode i).length) hl (by omega)⟩

/-- R151: a `jne` two bytes past its own first byte with displacement -2 comes back to it. -/
theorem step_jne_self {s : State} {rest : List Byte} (hs : s.status = .running) (hl : s.imem.length ≤ 65535)
    (hz : s.zf = false) (hbytes : s.imem.drop s.ip.toNat = 0x75#8 :: 0xFE#8 :: rest) : step s = .next s := by
  obtain ⟨hstep, hip⟩ := stepRunsTheInstructionAtIp s (.jne 0xFE#8) rest rfl hs hl hbytes
  have hip2 : (s.ip + 2#16).toNat = s.ip.toNat + 2 := hip
  have hlt := s.ip.isLt
  have hdisp : (0xFE#8).toInt = -2 := by decide
  obtain ⟨target, hexec, htarget⟩ := jneTakenMovesIpBySignedDisplacement 0xFE#8 { s with ip := s.ip + 2#16 } hz
    (by rw [hip2, hdisp]; omega) (by rw [hip2, hdisp]; omega)
  have hback : target = s.ip := by
    apply BitVec.eq_of_toNat_eq
    rw [hip2, hdisp] at htarget
    omega
  rw [hback] at hexec
  exact hstep.trans hexec

/-- Settles O38: the step gives the same state, so every run does. -/
theorem jneToItselfNeverLeaves : Obligations.JneToItselfNeverLeaves :=
  fun _ _ hs hl hz hbytes => runSteps_of_step_self (step_jne_self hs hl hz hbytes)

/-! ## The stopping conditions -/

/-- R183, R186: a running machine whose bytes at `ip` are Unrecognized halts. -/
theorem step_of_unrecognized {s : State} (hs : s.status = .running) (hl : s.imem.length ≤ Config.imemMax)
    (hd : decode s.bytesAtIp = .unrecognized) : step s = .next (s.raiseHalt .unrecognizedOpcode) := by
  have hne : s.ip.toNat ≠ s.imem.length := Nat.ne_of_lt (ip_lt_of_unrecognized hd)
  simp [step, fetch, hs, Nat.not_lt_of_le hl, hne, hd]

/-- R103, R184, R186: a running machine whose bytes at `ip` are cut short halts, except at the end of the image. -/
theorem step_of_truncated {s : State} (hs : s.status = .running) (hl : s.imem.length ≤ Config.imemMax)
    (hne : s.ip.toNat ≠ s.imem.length) (hd : decode s.bytesAtIp = .truncated) :
    step s = .next (s.raiseHalt .truncatedInstruction) := by
  simp [step, fetch, hs, Nat.not_lt_of_le hl, hne, hd]

/-- R41: where there is a byte at `ip`, `ip` is not at the end of the image. -/
theorem ip_ne_of_bytes {s : State} {bs : List Byte} (hb : s.bytesAtIp = bs) (hne : bs ≠ []) :
    s.ip.toNat ≠ s.imem.length := by
  intro he
  rw [← hb, State.bytesAtIp, he, List.drop_length] at hne
  exact hne rfl

/-- Settles O46: each condition is a case of the decoder on the bytes at `ip`. -/
theorem stoppingConditionsInOrder : Obligations.StoppingConditionsInOrder := by
  intro s hs hl
  refine ⟨step_of_end hs, fun hpast => ?past, fun b0 t hb hr => ?notListed, fun b0 hb hr => ?lone,
    fun b0 b1 t hb hill => ?illegal, fun i n hwf h2 hn hb => ?cut⟩
  case past =>
    have hnil : s.bytesAtIp = [] := List.drop_eq_nil_of_le (Nat.le_of_lt hpast)
    exact step_of_truncated hs hl (Nat.ne_of_gt hpast) (by rw [hnil]; rfl)
  case notListed => exact step_of_unrecognized hs hl (by rw [State.bytesAtIp, hb, decode_of_not_recognised hr])
  case lone =>
    exact step_of_truncated hs hl (ip_ne_of_bytes hb (by simp)) (by rw [State.bytesAtIp, hb, decode_singleton hr])
  case illegal => exact step_of_unrecognized hs hl (by rw [State.bytesAtIp, hb, decode_of_illegal hill])
  case cut =>
    have hne : (encode i).take n ≠ [] := List.ne_nil_of_length_pos (by rw [List.length_take]; omega)
    exact step_of_truncated hs hl (ip_ne_of_bytes hb hne)
      (by rw [State.bytesAtIp, hb, cutEncodingIsTruncated i n hwf hn])

/-! ## Stops -/

/-- R82: the bytes a decoded `jne` took are two. -/
theorem length_of_decoded_jne {bs bytes rest : List Byte} {d : Byte} (hd : decode bs = .ok (.jne d) rest)
    (hb : bs = bytes ++ rest) : bytes.length = 2 := by
  obtain ⟨-, henc⟩ := decodedBytesAreTheEncoding _ _ _ hd
  rw [List.append_cancel_right (hb.symm.trans henc)]
  rfl

/-- Settles O48: a step stops by a halt of its own, by the memory fault, or by a `jne` out of range. -/
theorem everyStopIsPrecise : Obligations.EveryStopIsPrecise := by
  intro s t hs h hstop
  rcases step_next_cases h with ⟨hne, -⟩ | ⟨-, hl, ⟨-, rfl⟩ | ⟨-, -, rfl⟩ | ⟨-, -, rfl⟩ |
    ⟨i, bytes, rest, hd, hb, -, hle, hexec⟩⟩
  · exact absurd hs hne
  · exact ⟨rfl, .inl rfl⟩
  · exact ⟨rfl, .inl rfl⟩
  · exact ⟨rfl, .inl rfl⟩
  have hip := advance_toNat hl hle
  rcases exec_status_cases hexec with ⟨hst, -⟩ | ⟨-, rfl⟩ | ⟨d, rfl, hz, hrange, rfl⟩
  · exact absurd (hst.trans hs) hstop
  · exact ⟨rfl, .inr (.inl ⟨rfl, i, bytes, rest, hd, hb, hip⟩)⟩
  · rw [length_of_decoded_jne hd hb] at hip hrange ⊢
    have htarget := branchTarget_toNat d (s.advance 2)
    rw [branchTarget, hip] at hrange
    rw [hip] at htarget
    push_cast at hrange htarget
    exact ⟨rfl, .inr (.inr ⟨d, rest, hd, hz, by omega, htarget⟩)⟩

/-! ## The Report -/

/-- R101, R111: the Report of an instruction found at `ip` that ends in the state `t`. -/
def State.reportOf (s : State) (i : Instr) (bytes : List Byte) (t : State) : Report :=
  { ins := ⟨i.mnemonic, i.dst, i.src, s.ip.toNat, bytes⟩, before := ⟨s.regs, s.zf, s.sf⟩,
    after := ⟨t.regs, t.zf, t.sf⟩, lastWrite := t.lastWrite }

/-- R101, R111: an executed instruction has a Report unless it took the memory fault. -/
theorem report_of_run {s t : State} {i : Instr} {bytes : List Byte} (hf : fetch s = .run i bytes)
    (ht : exec i (s.advance bytes.length) = .next t) :
    report s = if t.status = .faulted then none else some (s.reportOf i bytes t) := by
  rw [report, hf]
  simp only [ht]
  cases t.status <;> rfl

/-- R101: with a legal image, a step finds an instruction exactly when the machine runs and the bytes at `ip` decode to
it; the bytes found with it are those the decoder consumed. -/
theorem fetch_eq_run_iff {s : State} (hl : s.imem.length ≤ Config.imemMax) (i : Instr) (bytes : List Byte) :
    fetch s = .run i bytes ↔
      s.status = .running ∧ ∃ rest, decode s.bytesAtIp = .ok i rest ∧ s.bytesAtIp = bytes ++ rest := by
  constructor
  · intro h
    rcases fetch_cases s with ⟨-, hf⟩ | ⟨-, -, hf⟩ | ⟨-, -, -, hf⟩ | ⟨-, -, -, -, hf⟩ | ⟨-, -, -, -, hf⟩ |
      ⟨hs, -, _, _, rest, hd, hb, -, -, hf⟩
    case inr.inr.inr.inr.inr =>
      cases h.symm.trans hf
      exact ⟨hs, rest, hd, hb⟩
    all_goals cases h.symm.trans hf
  · rintro ⟨hs, rest, hd, hb⟩
    have hne : s.ip.toNat ≠ s.imem.length := fun he => by cases hd.symm.trans (decode_bytesAtIp_of_end he)
    have htake : s.bytesAtIp.take (s.bytesAtIp.length - rest.length) = bytes := by
      rw [hb, List.length_append, Nat.add_sub_cancel, List.take_left]
    simp only [fetch, hs, Nat.not_lt_of_le hl, hne, hd, htake, if_false]

/-- Settles O57: the instruction and its bytes are those `fetch` found. -/
theorem reportsAreOfExecutedInstructions : Obligations.ReportsAreOfExecutedInstructions := by
  intro s r hl
  constructor
  · intro h
    cases hf : fetch s with
    | run i bytes =>
      obtain ⟨hs, rest, hd, hb⟩ := (fetch_eq_run_iff hl i bytes).mp hf
      obtain ⟨t, ht⟩ := exec_next i (s.advance bytes.length)
      rw [report_of_run hf ht] at h
      split at h
      · cases h
      · next hne =>
        cases h
        exact ⟨i, bytes, rest, t, hs, hd, hb, (step_of_decode hs hl hd hb).trans ht, hne, rfl⟩
    | _ => rw [report, hf] at h; cases h
  · rintro ⟨i, bytes, rest, t, hs, hd, hb, hstep, hne, rfl⟩
    have hf : fetch s = .run i bytes := (fetch_eq_run_iff hl i bytes).mpr ⟨hs, rest, hd, hb⟩
    rw [report_of_run hf ((step_of_decode hs hl hd hb).symm.trans hstep), if_neg hne]
    rfl

end Sys2Proof.Machine
end
